-- ==== Sys2Proof/Word.lean ====
section
/-! DEFINITION. The bit-vector types of the kernel, at the widths spec rule R9 decides (log 2). -/

namespace Sys2Proof

/-- The payload of a packet: `PAYLOAD_W` = 64 bits (R9, R90). -/
abbrev Payload := BitVec 64

/-- The byte-validity mask of a packet: `MASK_W = PAYLOAD_W / 8` = 8 bits (R14, R90). -/
abbrev Mask := BitVec 8

/-- A weight or an input element: `W_WGT` = `W_IN` = 8 bits (R9). -/
abbrev Narrow := BitVec 8

/-- An offset, an output element or the accumulator: `W_OFF` = `W_OUT` = 32 bits (R9). -/
abbrev Wide := BitVec 32

/-- The operation selector `sel = phase ‖ cs`: 5 bits (R104). -/
abbrev Sel := BitVec 5

end Sys2Proof
end

