-- ==== Sys2Proof/Config.lean ====
section
/-! DEFINITION. What is fixed when the kernel is built (R7-R15): the parameters, the packing ratios, and the free values
of storage that nothing has written yet (R53, U16). -/

namespace Sys2Proof

/-- The parameters of rule R15. The checks on them are `Params.cfgchk` (R186) in WellFormed.lean. -/
structure Params where
  /-- `BATCH`, input rows per invocation (R8). -/
  batch : Nat
  /-- `FEAT`, features per row (R8). -/
  feat : Nat
  /-- `CLASSES`, outputs per row (R8). -/
  classes : Nat
  /-- `TILING`, rows per tile (R8). -/
  tiling : Nat
  /-- `PAYLOAD_W` (R9). -/
  payloadW : Nat
  /-- `W_OFF` (R9). -/
  wOff : Nat
  /-- `W_WGT` (R9). -/
  wWgt : Nat
  /-- `W_IN` (R9). -/
  wIn : Nat
  /-- `W_OUT` (R9). -/
  wOut : Nat
  /-- `LANES`, the group size of the engine (R13); DESIGN CHOICE: a parameter here, 32 in the spec (log 13). -/
  lanes : Nat
  /-- `ID_W`, the width of the routing id (R14). -/
  idW : Nat
  /-- `OUT_MASK`, the mask of every output packet (R99). -/
  outMask : Mask
  /-- `OUT_ID`, the routing id of every output packet (R99). -/
  outId : Nat
  /-- `OUT_CAP`, the capacity of the output channel; `none` is unbounded (R72). -/
  outCap : Option Nat
  deriving DecidableEq, Repr

/-- `R_OFF`, offsets per packet (R9). -/
def rOff : Nat := 2

/-- `R_WGT`, weights per packet (R9). -/
def rWgt : Nat := 8

/-- `R_IN`, input elements per packet (R9). -/
def rIn : Nat := 8

/-- `R_OUT`, outputs per packet (R9). -/
def rOut : Nat := 2

/-- The parameters at the spec's decided values (R15), for given dimensions; `ID_W` is open and stands at 1 (log 1). -/
def Params.decided (batch feat classes tiling : Nat) : Params where
  batch := batch
  feat := feat
  classes := classes
  tiling := tiling
  payloadW := 64
  wOff := 32
  wWgt := 8
  wIn := 8
  wOut := 32
  lanes := 32
  idW := 1
  outMask := 0xFF#8
  outId := 0
  outCap := none

/-- The four on-chip buffers (R60). -/
inductive BufId where
  /-- `off_buf` (R40). -/
  | off
  /-- `w_buf` (R41). -/
  | wgt
  /-- `in_buf` (R42). -/
  | inp
  /-- `out_buf` (R43). -/
  | out
  deriving DecidableEq, Repr

/-- FREE VALUE (log 4): what the element of width `w` at linear index `a` of a buffer holds before anything has
written it. R53 calls it unspecified and forbids a model to pick a value: nothing constrains this one. -/
opaque Config.unwritten (b : BufId) (w : Nat) (a : Nat) : BitVec w

end Sys2Proof
end

