-- ==== Sys2Proof/Syntax.lean ====
section
/-! DEFINITION. The nine operations of the sequencer, one constructor per row of spec/opcode_table.json (R6, R104). -/

namespace Sys2Proof

/-- An operation. None carries an operand: the operands are counters of the sequencer and the packet popped
(R30, R101, R107), so nothing but the selector is decoded. -/
inductive Instr where
  /-- START, begin an invocation (R165). -/
  | start
  /-- LDOFF, load two offsets (R123). -/
  | ldoff
  /-- LDWGT, load eight weights of one class (R124). -/
  | ldwgt
  /-- LDIN, load eight input features of one row (R131). -/
  | ldin
  /-- ACCINIT, start one output element (R140). -/
  | accinit
  /-- MAC, multiply and accumulate one group (R141). -/
  | mac
  /-- ACCWB, write back one output element and advance (R142). -/
  | accwb
  /-- STOUT, store two outputs of one row as one packet (R158). -/
  | stout
  /-- ACK, the host has observed completion (R178). -/
  | ack
  deriving DecidableEq, Repr

end Sys2Proof
end

