-- ==== Sys2Proof/WellFormed.lean ====
section
/-! DEFINITION. The static checks: the configuration check CFGCHK (R10, R186, R187), the configuration type that carries
its proof, and the reserved selector values (R106). -/

namespace Sys2Proof

/-- The names of the failed check (R186). -/
inductive ConfigError where
  /-- `CFG_CLASSES` (1). -/
  | cfgClasses
  /-- `CFG_FEAT` (2). -/
  | cfgFeat
  /-- `CFG_BATCH` (3). -/
  | cfgBatch
  /-- `CFG_WIDTH` (4). -/
  | cfgWidth
  deriving DecidableEq, Repr

/-- The number of each name (R186). -/
def ConfigError.code : ConfigError → Nat
  | .cfgClasses => 1
  | .cfgFeat => 2
  | .cfgBatch => 3
  | .cfgWidth => 4

/-- `CFGCHK` (R186): the first check that fails in the order of R187, `none` when the configuration is valid. -/
def Params.cfgchk (p : Params) : Option ConfigError :=
  if p.classes < 2 ∨ p.classes % 2 ≠ 0 then some .cfgClasses
  else if p.feat < 8 ∨ p.feat % 8 ≠ 0 then some .cfgFeat
  else if p.tiling < 1 ∨ p.batch < 1 ∨ p.batch % p.tiling ≠ 0 then some .cfgBatch
  else if rOff * p.wOff ≠ p.payloadW ∨ rWgt * p.wWgt ≠ p.payloadW ∨ rIn * p.wIn ≠ p.payloadW
      ∨ rOut * p.wOut ≠ p.payloadW then some .cfgWidth
  else none

/-- The widths are those this model is written for, the ones R9 decides (log 2). -/
def Params.widthsDecided (p : Params) : Bool :=
  p.payloadW = 64 ∧ p.wOff = 32 ∧ p.wWgt = 8 ∧ p.wIn = 8 ∧ p.wOut = 32

/-- What a machine of this model is built from: parameters that pass `CFGCHK`, at the decided widths (R9), with at least
one lane (R13) and an output id that fits `ID_W` bits (R14) (log 23). -/
def Params.buildable (p : Params) : Bool :=
  p.cfgchk = none ∧ p.widthsDecided = true ∧ 1 ≤ p.lanes ∧ p.outId < 2 ^ p.idW

/-- A valid configuration: the type carries the proof, so an invalid configuration has no machine (R10, R186). -/
structure Config extends Params where
  /-- The static check passed. -/
  ok : toParams.buildable = true
  deriving DecidableEq, Repr

/-- Whether a selector picks an operation: it is neither `111xx` nor `10011` (R106). -/
def selWellFormed (w : Sel) : Bool :=
  ¬ (w.extractLsb' 2 3 = 0b111#3) ∧ w ≠ 0b10011#5

end Sys2Proof
end

