-- ==== Sys2Proof/Decode.lean ====
section
/-! DEFINITION. The operation selector: its decoder, total on the 32 values and refusing the reserved ones by name
(R104, R106), and its encoder, from the same table. -/

namespace Sys2Proof

/-- A row of the selector table: `op` is selected when `sel AND mask = bits` (R104). -/
structure SelRow where
  /-- the row's `match` -/
  bits : Sel
  /-- the row's `mask` -/
  mask : Sel
  deriving DecidableEq, Repr

/-- The row of each operation, as spec/opcode_table.json gives it (R104). -/
def Instr.row : Instr → SelRow
  | .start => ⟨0x00#5, 0x1C#5⟩
  | .ldoff => ⟨0x04#5, 0x1C#5⟩
  | .ldwgt => ⟨0x08#5, 0x1C#5⟩
  | .ldin => ⟨0x0C#5, 0x1C#5⟩
  | .accinit => ⟨0x10#5, 0x1F#5⟩
  | .mac => ⟨0x11#5, 0x1F#5⟩
  | .accwb => ⟨0x12#5, 0x1F#5⟩
  | .stout => ⟨0x14#5, 0x1C#5⟩
  | .ack => ⟨0x18#5, 0x1C#5⟩

/-- The operations in the order of the table (R104). -/
def Instr.all : List Instr :=
  [.start, .ldoff, .ldwgt, .ldin, .accinit, .mac, .accwb, .stout, .ack]

/-- Whether the selector `w` picks the operation `i` (R104). -/
def Instr.selectedBy (i : Instr) (w : Sel) : Bool :=
  w &&& i.row.mask = i.row.bits

/-- Why a selector picks no operation (R106). -/
inductive DecodeError where
  /-- `111xx`: the reserved phase code. -/
  | reservedPhase
  /-- `10011`: the reserved sub-step code inside `COMPUTE_TILE`. -/
  | reservedSubStep
  deriving DecidableEq, Repr

/-- The operation a selector picks: the row it falls under, else the name of the reserved code (R104, R106). -/
def decode (w : Sel) : Except DecodeError Instr :=
  match Instr.all.find? (fun i => i.selectedBy w) with
  | some i => .ok i
  | none => .error (if w.extractLsb' 2 3 = 0b111#3 then .reservedPhase else .reservedSubStep)

/-- The selector of an operation: the row's `match`, the bits that are not examined at zero (R104). -/
def encode (i : Instr) : Sel := i.row.bits

/-- The decoder on the host's numbering of spec/opcode_table.json: the selector is the low five bits of `w`; no bit
stands above them (log 20). -/
def decodeTableWord (_nbits w : Nat) : Option Instr :=
  if w < 32 then (decode (BitVec.ofNat 5 w)).toOption else none

end Sys2Proof
end

