-- ==== Sys2Proof/Machine/Dims.lean ====
section
/-! DEFINITION. The derived constants of a configuration (R11, R13), the accumulator-fit obligation (R12) and the step
count of a run (R175). -/

namespace Sys2Proof

/-- `NT`, tiles per invocation (R11). -/
def Config.nt (c : Config) : Nat := c.batch / c.tiling

/-- `CPP`, packets per offset vector and output packets per row (R11). -/
def Config.cpp (c : Config) : Nat := c.classes / 2

/-- `FPP`, packets per weight row and per input row (R11). -/
def Config.fpp (c : Config) : Nat := c.feat / 8

/-- `OFF_PKTS` (R11). -/
def Config.offPkts (c : Config) : Nat := c.cpp

/-- `WGT_PKTS` (R11). -/
def Config.wgtPkts (c : Config) : Nat := c.classes * c.fpp

/-- `TILE_IN_PKTS` (R11). -/
def Config.tileInPkts (c : Config) : Nat := c.tiling * c.fpp

/-- `TILE_OUT_PKTS` (R11). -/
def Config.tileOutPkts (c : Config) : Nat := c.tiling * c.cpp

/-- `IS_SIZE`, packets consumed per invocation, the document's own formula (R11). -/
def Config.isSize (c : Config) : Nat := c.classes / 2 + c.classes * c.feat / 8 + c.batch * c.feat / 8

/-- `OS_SIZE`, packets produced per invocation, the document's own formula (R11). -/
def Config.osSize (c : Config) : Nat := c.batch * c.classes / 2

/-- `NG = ceil(FEAT / LANES)`, groups per dot product (R11, R13). -/
def Config.ng (c : Config) : Nat := (c.feat + c.lanes - 1) / c.lanes

/-- `ACC_FITS` (R12): the sum of products alone does not leave the accumulator. -/
def Config.accFits (c : Config) : Prop :=
  c.feat * (2 ^ c.wIn - 1) * 2 ^ (c.wWgt - 1) ≤ 2 ^ (c.wOut - 1)

/-- The operations of one tile: load, compute, store (R175). -/
def Config.tileSteps (c : Config) : Nat :=
  c.tileInPkts + c.tiling * c.classes * (c.ng + 2) + c.tileOutPkts

/-- `STEPS`, the kernel steps from START to `DONE`, START included (R175). -/
def Config.steps (c : Config) : Nat :=
  1 + c.offPkts + c.wgtPkts + c.nt * c.tileSteps

end Sys2Proof
end

