-- ==== Sys2Proof/Machine/State.lean ====
section
/-! DEFINITION. The state of the machine as plain data (10_state.md): the sequencer tuple, the counters, the accumulator,
the four buffers, the two channels, the control surface and the environment's turns; and the state after reset. -/

namespace Sys2Proof.Machine

open Sys2Proof

/-- A packet (R90). The routing id is a tag nothing computes with (R94). Its width `ID_W` is open (R14), so it is held as a
number, of which a channel carries `ID_W` bits (`Packet.carried`; log 12). -/
structure Packet where
  /-- `data`, the payload (R91). -/
  data : Payload
  /-- `mask`, the byte-validity mask (R92). -/
  mask : Mask
  /-- `id`, the routing id (R94); below `2^ID_W` in every packet of a channel (`State.Sound.ids`). -/
  id : Nat
  /-- `last`, the end-of-stream flag (R93). -/
  last : Bool
  deriving DecidableEq, Repr

/-- The phase register: the seven states of R32 and the reserved code of R106. -/
inductive Phase where
  /-- `IDLE` -/
  | idle
  /-- `LOAD_OFFSETS` -/
  | loadOffsets
  /-- `LOAD_WEIGHTS` -/
  | loadWeights
  /-- `LOAD_TILE` -/
  | loadTile
  /-- `COMPUTE_TILE` -/
  | computeTile
  /-- `STORE_TILE` -/
  | storeTile
  /-- `DONE` -/
  | done
  /-- code `111`, reserved and unreachable (R103, R106; log 10) -/
  | reserved
  deriving DecidableEq, Repr

/-- The compute sub-step: the three values of R36 and the reserved code of R105. -/
inductive SubStep where
  /-- `INIT` -/
  | init
  /-- `MACS` -/
  | macs
  /-- `WB` -/
  | wb
  /-- code `11`, reserved and unreachable (R105, R106; log 10) -/
  | reserved
  deriving DecidableEq, Repr

/-- A buffer: the elements written so far, by linear index, indices strictly rising (R60; log 4). For the 8-bit buffers
this is a list of `Host.Cell`. -/
abbrev Buf (w : Nat) := List (Nat × BitVec w)

/-- The four on-chip buffers (R60). -/
structure Memory where
  /-- `off_buf`, index `j` (R40, R61). -/
  off : Buf 32
  /-- `w_buf`, index `j*FEAT + k` (R41, R62). -/
  wgt : Buf 8
  /-- `in_buf`, index `i*FEAT + k` (R42, R63). -/
  inp : Buf 8
  /-- `out_buf`, index `i*CLASSES + j` (R43, R64). -/
  out : Buf 32
  deriving DecidableEq, Repr

/-- A move of the environment (R179). -/
inductive HostMove where
  /-- `HOST_SEND(p)` -/
  | send (p : Packet)
  /-- `HOST_RECV` -/
  | recv
  /-- the event `start` -/
  | start
  /-- the event `ack` -/
  | ack
  deriving DecidableEq, Repr

/-- Whose turn the next step is: the kernel's and the environment's moves interleave in any order (R179, R196; log 6). -/
inductive Turn where
  /-- the kernel performs the operation it has enabled -/
  | kernel
  /-- the environment moves -/
  | host (m : HostMove)
  deriving DecidableEq, Repr

/-- Everything the spec gives the machine, and two fields of the model's own (`sched`, `received`). -/
structure State where
  /-- the configuration, fixed for the life of the machine (R7, R51; log 1) -/
  cfg : Config
  /-- `phase` (R32) -/
  phase : Phase
  /-- `t`, the tile index (R33); it and the counters below are naturals (DEDUCED, log 11) -/
  t : Nat
  /-- `cnt`, packets handled in the current packet phase (R34) -/
  cnt : Nat
  /-- `i`, the row in the tile (R35) -/
  i : Nat
  /-- `j`, the class (R35) -/
  j : Nat
  /-- `g`, the group of features (R35) -/
  g : Nat
  /-- `cs`, the compute sub-step (R36) -/
  cs : SubStep
  /-- `icnt`, the input cursor (R37) -/
  icnt : Nat
  /-- `ocnt`, the global output packet count (R38) -/
  ocnt : Nat
  /-- `acc`, the accumulator (R39) -/
  acc : Wide
  /-- the four buffers (R40-R43) -/
  mem : Memory
  /-- `in_ch`, head first (R44) -/
  inCh : List Packet
  /-- `out_ch`, head first (R45) -/
  outCh : List Packet
  /-- the input event `start` is raised (R50; held as a bit: log 7; not raised after reset: DESIGN CHOICE, log 24) -/
  startReq : Bool
  /-- the input event `ack` is raised (R50; held as a bit: log 7; not raised after reset: DESIGN CHOICE, log 24) -/
  ackReq : Bool
  /-- THE MODEL'S OWN (log 6): the turns still to come, first one first; when it is empty every step is the kernel's -/
  sched : List Turn
  /-- THE MODEL'S OWN (log 8): the packets `HOST_RECV` has handed to the host, oldest first -/
  received : List Packet
  deriving DecidableEq, Repr

/-- Why a step stops. The spec's machine never does (R185); the one fault is the model's, for states no run reaches. -/
inductive Fault where
  /-- Raised by an access to a buffer element that does not exist, an index outside the shape of R60. SAFE: the hardware
  has no bounds check and needs none (R65); no state that meets `State.Inv` raises it (log 5). -/
  | noElement (buf : BufId) (row col : Nat)
  deriving DecidableEq, Repr

/-- Why an operation has no meaning. No operation of this model is refused. -/
inductive Refusal where
  /-- Raised only by an arm of `exec` whose operation has no meaning yet; none is left. SAFE. -/
  | notModelled (mnemonic : String)
  deriving DecidableEq, Repr

/-- What a step or an operation answers. -/
abbrev Result := Host.Outcome State Fault Refusal

/-- The state after reset of a kernel built with the configuration `c` (R53, R211). The buffers list nothing: every
element is unspecified and reads as a free value (log 4). `acc` is unspecified too; a register holds a value, and 0 is
the model's DESIGN CHOICE (log 3). The two event bits are the model's own form of `start` and `ack` (log 7), and R53 and R211
list no value for them: that neither is raised is the model's DESIGN CHOICE (log 24). -/
def State.resetWith (c : Config) : State where
  cfg := c
  phase := .idle
  t := 0
  cnt := 0
  i := 0
  j := 0
  g := 0
  cs := .init
  icnt := 0
  ocnt := 0
  acc := 0#32
  mem := ⟨[], [], [], []⟩
  inCh := []
  outCh := []
  startReq := false
  ackReq := false
  sched := []
  received := []

/-- The configuration of `State.reset`: the dimensions of the source's one example, `CLASSES = 2, FEAT = 8, BATCH = 2,
TILING = 1` (R8), the spec's decided values for the rest. DESIGN CHOICE (log 1). -/
def exampleConfig : Config := ⟨Params.decided 2 8 2 1, by decide⟩

/-- The machine right after reset (R53, R211), at the configuration of the source's example (log 1). -/
def State.reset : State := State.resetWith exampleConfig

end Sys2Proof.Machine
end

