-- ==== Sys2Proof/Machine/Flags.lean ====
section
/-! DEFINITION. The kernel has no condition codes (R46). What it has instead: the status outputs, pure functions of `phase`
(R46), and the end-of-stream flag of an output packet (R159). -/

namespace Sys2Proof.Machine

open Sys2Proof

/-- The status output `idle` (R46). -/
def State.idleOut (s : State) : Bool := s.phase = .idle

/-- The status output `done`, a level (R46, R195). -/
def State.doneOut (s : State) : Bool := s.phase = .done

/-- `busy` (R46). -/
def State.busy (s : State) : Bool := !s.idleOut && !s.doneOut

/-- `last` of the packet about to be pushed: the global count stands at `OS_SIZE - 1` before the push (R159). -/
def lastFlag (c : Config) (ocnt : Nat) : Bool := ocnt = c.osSize - 1

end Sys2Proof.Machine
end

