-- ==== Sys2Proof/Machine/Operands.lean ====
section
/-! DEFINITION. Operand forms: numeric readings and width changes (R17, R18), lanes of a payload (R19, R122, R156), the row
and packet a count stands for (R124, R131, R158), the engine's arithmetic (R136-R139) and the bank of an element (R66). -/

namespace Sys2Proof.Machine

open Sys2Proof

/-- `u(v)`, the unsigned value (R17). -/
def uval {w : Nat} (v : BitVec w) : Int := v.toNat

/-- `s(v)`, the signed value in two's complement (R17; UNVERIFIED, log 18). -/
def sval {w : Nat} (v : BitVec w) : Int := v.toInt

/-- `wrap_n(z)`, the `n`-bit vector whose unsigned value is `z mod 2^n` (R18). -/
def wrap (n : Nat) (z : Int) : BitVec n := BitVec.ofInt n z

/-- `sext_n(v)` (R18). -/
def sext {w : Nat} (n : Nat) (v : BitVec w) : BitVec n := v.signExtend n

/-- `zext_n(v)` (R18). -/
def zext {w : Nat} (n : Nat) (v : BitVec w) : BitVec n := v.setWidth n

/-- `lane(d, W, e) = d[(e+1)*W-1 : e*W]`: lane 0 is in the least significant bits (R19, R76; UNVERIFIED, log 17). -/
def lane (d : Payload) (w e : Nat) : BitVec w := d.extractLsb' (e * w) w

/-- `unpack(W, R, d)`: the payload as `R` elements of `W` bits, lane 0 first (R122). -/
def unpack (w r : Nat) (d : Payload) : List (BitVec w) := (List.range r).map (lane d w)

/-- `pack(W, [v_0, ..., v_{R-1}])` = `v_{R-1} ‖ ... ‖ v_0` (R19, R156). -/
def pack (w : Nat) : List (BitVec w) → Payload
  | [] => 0#64
  | v :: vs => v.setWidth 64 ||| (pack w vs <<< w)

/-- The row a packet count stands for: `cnt div (packets per row)` (R124, R131, R158). -/
def rowOf (cnt perRow : Nat) : Nat := cnt / perRow

/-- The packet within its row: `cnt mod (packets per row)` (R124, R131, R158). -/
def pktOf (cnt perRow : Nat) : Nat := cnt % perRow

/-- The exact product of an unsigned input and a signed weight (R136). -/
def prod (x w : Narrow) : Int := uval x * sval w

/-- The group sum of a row of inputs `x` and a row of weights `w`: `LANES` products side by side, a lane past `FEAT`
contributing 0 (R137, R141). -/
def gsum (c : Config) (x w : Nat → Narrow) (g : Nat) : Int :=
  ((List.range c.lanes).map fun l =>
    if g * c.lanes + l < c.feat then prod (x (g * c.lanes + l)) (w (g * c.lanes + l)) else 0).sum

/-- The accumulator loaded from an offset: `sext_{W_OUT}(off)` (R139). -/
def accLoad (off : Wide) : Wide := sext 32 off

/-- The accumulator after adding an integer: `wrap_{W_OUT}(s(acc) + z)`, no saturation, no flag (R139). -/
def accAdd (acc : Wide) (z : Int) : Wide := wrap 32 (sval acc + z)

/-- One level of the adder tree: neighbours are added, an odd one out passes on (R138). -/
def treeLevel {α : Type} [Add α] : List α → List α
  | a :: b :: r => (a + b) :: treeLevel r
  | l => l

/-- The balanced binary adder tree of `n` levels (R138). -/
def treeLevels {α : Type} [Add α] : Nat → List α → List α
  | 0, l => l
  | n + 1, l => treeLevels n (treeLevel l)

/-- The bank that holds feature `k` of a row of `w_buf` or `in_buf` (R66; log 14). -/
def bank (c : Config) (k : Nat) : Nat := k % c.lanes

/-- The address within its bank of element `[r][k]` (R66). -/
def bankAddr (c : Config) (r k : Nat) : Nat := r * c.ng + k / c.lanes

end Sys2Proof.Machine
end

