-- ==== Sys2Proof/Machine/Ops.lean ====
section
/-! DEFINITION. The named operations over the state that the meanings share: the buffers (`MemRead`, `MemWrite`, R20, R68),
the channels (`Pop`, R121, `Push`, R157), the sequencer's moves, the selector (R104) and the environment's moves (R179).

There is no operation that takes an exception and none that returns from one: the kernel raises no exception at run time
(R185), has no trap entry (R197) and no trap return (R198). -/

namespace Sys2Proof.Machine

open Sys2Proof

/-! ### Buffers -/

/-- Rows of a buffer; the offset vector is one row (R60). -/
def bufRows (c : Config) : BufId → Nat
  | .off => 1
  | .wgt => c.classes
  | .inp => c.tiling
  | .out => c.tiling

/-- Elements in a row of a buffer (R60). -/
def bufCols (c : Config) : BufId → Nat
  | .off => c.classes
  | .wgt => c.feat
  | .inp => c.feat
  | .out => c.classes

/-- The linear index of element `[r][k]`, row-major (R61-R64). -/
def bufIndex (c : Config) (b : BufId) (r k : Nat) : Nat := r * bufCols c b + k

/-- The `n` consecutive elements from `[r][k]` all exist, within one row (R60, R78). -/
def bufHolds (c : Config) (b : BufId) (r k n : Nat) : Bool := r < bufRows c b ∧ k + n ≤ bufCols c b

/-- The element listed at an index, if any. -/
def Buf.find {w : Nat} (a : Nat) : Buf w → Option (BitVec w)
  | [] => none
  | (k, v) :: r => if k = a then some v else Buf.find a r

/-- What the element at a linear index holds: the value written last, a free value where nothing has been written
(R53, R81; log 4). -/
def Buf.read {w : Nat} (b : Buf w) (id : BufId) (a : Nat) : BitVec w := (Buf.find a b).getD (Config.unwritten id w a)

/-- One element written (R68); the indices stay strictly rising. -/
def Buf.write {w : Nat} (a : Nat) (v : BitVec w) : Buf w → Buf w
  | [] => [(a, v)]
  | (k, x) :: r => if a < k then (a, v) :: (k, x) :: r else if a = k then (a, v) :: r else (k, x) :: Buf.write a v r

/-- Consecutive elements written from index `a` on, lane 0 first (R78). -/
def Buf.writeRun {w : Nat} (a : Nat) : List (BitVec w) → Buf w → Buf w
  | [], b => b
  | v :: vs, b => Buf.writeRun (a + 1) vs (Buf.write a v b)

/-- The canonical form of a buffer of `size` elements: indices strictly rising and below the size. -/
abbrev Buf.wf {w : Nat} (size : Nat) (b : Buf w) : Prop :=
  b.Pairwise (fun x y => x.1 < y.1) ∧ ∀ e ∈ b, e.1 < size

/-- The number of elements of a buffer (R60). -/
def bufSize (c : Config) (b : BufId) : Nat := bufRows c b * bufCols c b

/-- All four buffers are in canonical form. -/
abbrev Memory.wf (c : Config) (m : Memory) : Prop :=
  m.off.wf (bufSize c .off) ∧ m.wgt.wf (bufSize c .wgt) ∧ m.inp.wf (bufSize c .inp) ∧ m.out.wf (bufSize c .out)

/-- `MemRead(off_buf[j])` (R20, R61). -/
def State.offAt (s : State) (j : Nat) : Wide := s.mem.off.read .off (bufIndex s.cfg .off 0 j)

/-- `MemRead(w_buf[j][k])` (R20, R62). -/
def State.wgtAt (s : State) (j k : Nat) : Narrow := s.mem.wgt.read .wgt (bufIndex s.cfg .wgt j k)

/-- `MemRead(in_buf[i][k])` (R20, R63). -/
def State.inpAt (s : State) (i k : Nat) : Narrow := s.mem.inp.read .inp (bufIndex s.cfg .inp i k)

/-- `MemRead(out_buf[i][j])` (R20, R64). -/
def State.outAt (s : State) (i j : Nat) : Wide := s.mem.out.read .out (bufIndex s.cfg .out i j)

/-- `MemWrite` of consecutive offsets from `off_buf[j]` (R20, R123). -/
def State.writeOff (s : State) (j : Nat) (vs : List Wide) : State :=
  { s with mem := { s.mem with off := s.mem.off.writeRun (bufIndex s.cfg .off 0 j) vs } }

/-- `MemWrite` of consecutive weights from `w_buf[j][k]` (R20, R124). -/
def State.writeWgt (s : State) (j k : Nat) (vs : List Narrow) : State :=
  { s with mem := { s.mem with wgt := s.mem.wgt.writeRun (bufIndex s.cfg .wgt j k) vs } }

/-- `MemWrite` of consecutive input elements from `in_buf[i][k]` (R20, R131). -/
def State.writeInp (s : State) (i k : Nat) (vs : List Narrow) : State :=
  { s with mem := { s.mem with inp := s.mem.inp.writeRun (bufIndex s.cfg .inp i k) vs } }

/-- `MemWrite` of `out_buf[i][j]` (R20, R142). -/
def State.writeOut (s : State) (i j : Nat) (v : Wide) : State :=
  { s with mem := { s.mem with out := s.mem.out.write (bufIndex s.cfg .out i j) v } }

/-- Go on only where the accessed elements exist. They always do in a state that a run reaches (R65), so this is no
bounds check of the hardware: it is where the model stops on states no run reaches (log 5). -/
def State.within (s : State) (b : BufId) (r k n : Nat) (res : Result) : Result :=
  if bufHolds s.cfg b r k n then res else .fault (.noElement b r k)

/-! ### Channels -/

/-- `Pop()`: the head of the input channel is removed and counted; an operation that pops an empty channel is not enabled
and the state stays as it is (R121, R189; DEDUCED, log 9). -/
def State.popping (s : State) (k : Packet → State → Result) : Result :=
  match s.inCh with
  | [] => .next s
  | p :: rest => k p { s with inCh := rest, icnt := s.icnt + 1 }

/-- The output channel has room (R72, R157). -/
def State.hasRoom (s : State) : Bool :=
  match s.cfg.outCap with
  | none => true
  | some n => s.outCh.length < n

/-- `Push(p)` (R157). -/
def State.pushed (s : State) (p : Packet) : State :=
  { s with outCh := s.outCh ++ [p], ocnt := s.ocnt + 1 }

/-- The output packet that carries two outputs: its payload and its sideband (R98, R99, R158). -/
def State.outPacket (s : State) (y0 y1 : Wide) : Packet where
  data := pack 32 [y0, y1]
  mask := s.cfg.outMask
  id := s.cfg.outId
  last := lastFlag s.cfg s.ocnt

/-! ### The sequencer -/

/-- A phase that counts packets is entered: `cnt` starts at 0 (R34). -/
def State.enter (s : State) (ph : Phase) : State := { s with phase := ph, cnt := 0 }

/-- The compute phase is entered (R35, R36, R131). -/
def State.enterCompute (s : State) : State := { s with phase := .computeTile, i := 0, j := 0, g := 0, cs := .init }

/-- One packet of the phase handled: the count moves on, or `atEnd` happens after the last of `total` (R34). -/
def State.countPacket (s : State) (total : Nat) (atEnd : State) : State :=
  if s.cnt + 1 < total then { s with cnt := s.cnt + 1 } else atEnd

/-! ### The selector -/

/-- The code of a phase (R103). -/
def Phase.code : Phase → BitVec 3
  | .idle => 0b000#3
  | .loadOffsets => 0b001#3
  | .loadWeights => 0b010#3
  | .loadTile => 0b011#3
  | .computeTile => 0b100#3
  | .storeTile => 0b101#3
  | .done => 0b110#3
  | .reserved => 0b111#3

/-- The phase of a code (R103). -/
def Phase.ofCode (w : BitVec 3) : Phase :=
  if w = 0b000#3 then .idle
  else if w = 0b001#3 then .loadOffsets
  else if w = 0b010#3 then .loadWeights
  else if w = 0b011#3 then .loadTile
  else if w = 0b100#3 then .computeTile
  else if w = 0b101#3 then .storeTile
  else if w = 0b110#3 then .done
  else .reserved

/-- The code of a sub-step (R105). -/
def SubStep.code : SubStep → BitVec 2
  | .init => 0b00#2
  | .macs => 0b01#2
  | .wb => 0b10#2
  | .reserved => 0b11#2

/-- The sub-step of a code (R105). -/
def SubStep.ofCode (w : BitVec 2) : SubStep :=
  if w = 0b00#2 then .init
  else if w = 0b01#2 then .macs
  else if w = 0b10#2 then .wb
  else .reserved

/-- The selector `sel = phase ‖ cs` (R104). -/
def State.sel (s : State) : Sel := s.phase.code ++ s.cs.code

/-- The operation the selector picks (R104, R106). -/
def State.fetch (s : State) : Except DecodeError Instr := decode s.sel

/-- The extra enabling condition of an operation (R104). -/
def State.condition (s : State) : Instr → Bool
  | .start => s.startReq
  | .ldoff | .ldwgt | .ldin => !s.inCh.isEmpty
  | .accinit | .mac | .accwb => true
  | .stout => s.hasRoom
  | .ack => s.ackReq

/-- The operation that is enabled in a state, if any: the one the selector picks, when its condition holds (R21, R104). -/
def State.enabledOp (s : State) : Option Instr :=
  match s.fetch with
  | .ok i => if s.condition i then some i else none
  | .error _ => none

/-- The kernel is stuck: it is in the middle of a run and no operation is enabled (R190). -/
def State.stuck (s : State) : Bool := s.busy && s.enabledOp.isNone

/-! ### The environment -/

/-- A packet as a channel carries it: the id is `ID_W` bits wide (R14, R90; log 12). -/
def Packet.carried (c : Config) (p : Packet) : Packet := { p with id := p.id % 2 ^ c.idW }

/-- A move of the environment (R179). `start` outside `IDLE` and `ack` outside `DONE` change nothing (R193); inside, the
event stays raised until the operation it enables takes it (log 7). -/
def State.hostMove (s : State) : HostMove → State
  | .send p => { s with inCh := s.inCh ++ [p.carried s.cfg] }
  | .recv =>
    match s.outCh with
    | [] => s
    | p :: rest => { s with outCh := rest, received := s.received ++ [p] }
  | .start => if s.phase = .idle then { s with startReq := true } else s
  | .ack => if s.phase = .done then { s with ackReq := true } else s

/-- Whose turn it is, and the state with that turn taken off the schedule: the environment's move, or `none` for the
kernel's turn; with no turn scheduled it is the kernel's (R179, R196; log 6). -/
def State.takeTurn (s : State) : Option HostMove × State :=
  match s.sched with
  | .host m :: rest => (some m, { s with sched := rest })
  | .kernel :: rest => (none, { s with sched := rest })
  | [] => (none, s)

end Sys2Proof.Machine
end

