-- ==== Sys2Proof/Machine/Engine.lean ====
section
/-! DEFINITION. The Dot-Product Engine: ACCINIT, MAC and ACCWB (42_dot_product_engine.md). -/

namespace Sys2Proof.Machine

open Sys2Proof

/-- ACCINIT, start one output element (R140). -/
def execAccinit (s : State) : Result :=
  if s.phase = .computeTile ∧ s.cs = .init then
    s.within .off 0 s.j 1 <|
      .next { s with acc := accLoad (s.offAt s.j), g := 0, cs := .macs }
  else .next s

/-- MAC, multiply and accumulate one group (R141). -/
def execMac (s : State) : Result :=
  if s.phase = .computeTile ∧ s.cs = .macs then
    s.within .inp s.i 0 s.cfg.feat <| s.within .wgt s.j 0 s.cfg.feat <|
      let s' := { s with acc := accAdd s.acc (gsum s.cfg (s.inpAt s.i) (s.wgtAt s.j) s.g) }
      .next (if s.g + 1 < s.cfg.ng then { s' with g := s.g + 1 } else { s' with cs := .wb })
  else .next s

/-- ACCWB, write back one output element and advance (R142). -/
def execAccwb (s : State) : Result :=
  if s.phase = .computeTile ∧ s.cs = .wb then
    s.within .out s.i s.j 1 <|
      let s' := { s.writeOut s.i s.j s.acc with cs := .init }
      .next
        (if s.j + 1 < s.cfg.classes then { s' with j := s.j + 1, g := 0 }
        else if s.i + 1 < s.cfg.tiling then { s' with i := s.i + 1, j := 0, g := 0 }
        else s'.enter .storeTile)
  else .next s

end Sys2Proof.Machine
end

