-- ==== Sys2Proof/Machine/Packer.lean ====
section
/-! DEFINITION. The Stream Packer: STOUT (43_stream_packer.md). -/

namespace Sys2Proof.Machine

open Sys2Proof

/-- STOUT, store two outputs of one row as one packet (R158). A full output channel holds the kernel (R72). -/
def execStout (s : State) : Result :=
  if s.phase = .storeTile ∧ s.hasRoom = true then
    let i := rowOf s.cnt s.cfg.cpp
    let k := 2 * pktOf s.cnt s.cfg.cpp
    s.within .out i k 2 <|
      let s' := s.pushed (s.outPacket (s.outAt i k) (s.outAt i (k + 1)))
      .next (s'.countPacket s.cfg.tileOutPkts
        (if s.t + 1 < s.cfg.nt then { s'.enter .loadTile with t := s.t + 1 } else { s' with phase := .done }))
  else .next s

end Sys2Proof.Machine
end

