-- ==== Sys2Proof/Machine/Sequencer.lean ====
section
/-! DEFINITION. The control-surface operations START and ACK (44_sequencer.md). -/

namespace Sys2Proof.Machine

open Sys2Proof

/-- START, begin an invocation (R165). It clears no buffer and touches no channel. With no `start` raised it is not
enabled and the state stays as it is. -/
def execStart (s : State) : Result :=
  if s.phase = .idle ∧ s.startReq = true then
    .next { s with
      phase := .loadOffsets, t := 0, cnt := 0, i := 0, j := 0, g := 0, cs := .init, icnt := 0, ocnt := 0
      startReq := false }
  else .next s

/-- ACK, the host has observed completion (R178). `DONE` is held until `ack` is raised. -/
def execAck (s : State) : Result :=
  if s.phase = .done ∧ s.ackReq = true then .next { s with phase := .idle, ackReq := false }
  else .next s

end Sys2Proof.Machine
end

