-- ==== Sys2Proof/Machine/TileLoader.lean ====
section
/-! DEFINITION. The Tile Loader: LDIN (41_tile_loader.md). -/

namespace Sys2Proof.Machine

open Sys2Proof

/-- LDIN, load eight input features of one row (R131). -/
def execLdin (s : State) : Result :=
  if s.phase = .loadTile then
    s.popping fun p s' =>
      let i := rowOf s.cnt s.cfg.fpp
      let k := 8 * pktOf s.cnt s.cfg.fpp
      s'.within .inp i k 8 <|
        let s'' := s'.writeInp i k (unpack 8 8 p.data)
        .next (s''.countPacket s.cfg.tileInPkts s''.enterCompute)
  else .next s

end Sys2Proof.Machine
end

