-- ==== Sys2Proof/Machine/Unpacker.lean ====
section
/-! DEFINITION. The Stream Unpacker: LDOFF and LDWGT (40_stream_unpacker.md). -/

namespace Sys2Proof.Machine

open Sys2Proof

/-- LDOFF, load two offsets (R123). -/
def execLdoff (s : State) : Result :=
  if s.phase = .loadOffsets then
    s.popping fun p s' =>
      s'.within .off 0 (2 * s.cnt) 2 <|
        let s'' := s'.writeOff (2 * s.cnt) (unpack 32 2 p.data)
        .next (s''.countPacket s.cfg.offPkts (s''.enter .loadWeights))
  else .next s

/-- LDWGT, load eight weights of one class (R124). -/
def execLdwgt (s : State) : Result :=
  if s.phase = .loadWeights then
    s.popping fun p s' =>
      let j := rowOf s.cnt s.cfg.fpp
      let k := 8 * pktOf s.cnt s.cfg.fpp
      s'.within .wgt j k 8 <|
        let s'' := s'.writeWgt j k (unpack 8 8 p.data)
        .next (s''.countPacket s.cfg.wgtPkts (s''.enter .loadTile))
  else .next s

end Sys2Proof.Machine
end

