-- ==== Sys2Proof/Machine/Dispatch.lean ====
section
/-! DEFINITION. One arm per operation (R104). -/

namespace Sys2Proof.Machine

open Sys2Proof

def exec (i : Instr) (s : State) : Host.Outcome State Fault Refusal :=
  match i with
  | .start => Sys2Proof.Machine.execStart s
  | .ldoff => Sys2Proof.Machine.execLdoff s
  | .ldwgt => Sys2Proof.Machine.execLdwgt s
  | .ldin => Sys2Proof.Machine.execLdin s
  | .accinit => Sys2Proof.Machine.execAccinit s
  | .mac => Sys2Proof.Machine.execMac s
  | .accwb => Sys2Proof.Machine.execAccwb s
  | .stout => Sys2Proof.Machine.execStout s
  | .ack => Sys2Proof.Machine.execAck s

end Sys2Proof.Machine
end

