-- ==== Sys2Proof/Machine/Step.lean ====
section
/-! DEFINITION. One step of the machine: a move of the environment, or the operation the selector picks (R21, R104, R179). -/

namespace Sys2Proof.Machine

open Sys2Proof

/-- One step. On the environment's turn its move happens (R179). On the kernel's turn the operation the selector picks is
performed, and under a reserved selector none is (R104, R106). -/
def step (s : State) : Host.Outcome State Fault Refusal :=
  match s.takeTurn with
  | (some m, s') => .next (s'.hostMove m)
  | (none, s') =>
    match s'.fetch with
    | .ok i => exec i s'
    | .error _ => .next s'

/-- `s` arranged so that its next step performs exactly the operation of the selector `w`: the selector's two registers
hold it, it is the kernel's turn, and the operation's enabling condition holds: the event it waits for is raised, a packet
of zeros waits where it pops one and none does, and a full output channel has been drained (log 16). -/
def State.withFetchWord (s : State) (_nbits w : Nat) : State :=
  let sel := BitVec.ofNat 5 w
  let ph := Phase.ofCode (sel.extractLsb' 2 3)
  { s with
    phase := ph
    cs := SubStep.ofCode (sel.extractLsb' 0 2)
    sched := []
    startReq := s.startReq || ph = .idle
    ackReq := s.ackReq || ph = .done
    inCh := if s.inCh.isEmpty && (ph = .loadOffsets || ph = .loadWeights || ph = .loadTile)
      then [⟨0#64, 0#8, 0, false⟩] else s.inCh
    outCh := if ph = .storeTile && !s.hasRoom then [] else s.outCh }

end Sys2Proof.Machine
end

