-- ==== Sys2Proof/Machine/Reference.lean ====
section
/-! DEFINITION. The invocation as a function of its input stream: the closed form of R180 (R2, R146), and the fixed
sequence of operations of a run (R109, R167, R175). No operation calls anything of this file: it is what the operations
are held against. -/

namespace Sys2Proof.Machine

open Sys2Proof

/-! ### The closed form (R180). `S n` is the payload of the `n`-th packet popped in the invocation (R71). -/

/-- The offset of class `j` in the stream (R127, R180). -/
def refOff (S : Nat → Payload) (j : Nat) : Wide := lane (S (j / 2)) 32 (j % 2)

/-- The weight of class `j` for feature `k` in the stream (R127, R180). -/
def refWgt (c : Config) (S : Nat → Payload) (j k : Nat) : Narrow :=
  lane (S (c.offPkts + j * c.fpp + k / 8)) 8 (k % 8)

/-- Feature `k` of sample `b` in the stream (R132, R180). -/
def refInp (c : Config) (S : Nat → Payload) (b k : Nat) : Narrow :=
  lane (S (c.offPkts + c.wgtPkts + b * c.fpp + k / 8)) 8 (k % 8)

/-- The exact sum of the first `n` products of sample `b` and class `j` (R146, R180). -/
def refDot (c : Config) (S : Nat → Payload) (b j n : Nat) : Int :=
  ((List.range n).map fun k => prod (refInp c S b k) (refWgt c S j k)).sum

/-- `z[b][j]`, the unbounded integer (R146, R180). -/
def refZ (c : Config) (S : Nat → Payload) (b j : Nat) : Int := sval (refOff S j) + refDot c S b j c.feat

/-- `y[b][j]`, the stored output (R146, R180). -/
def refY (c : Config) (S : Nat → Payload) (b j : Nat) : Wide := wrap 32 (refZ c S b j)

/-- `O[m]`, the `m`-th output packet (R74, R180). -/
def refPacket (c : Config) (S : Nat → Payload) (m : Nat) : Packet where
  data := pack 32 [refY c S (m / c.cpp) (2 * (m % c.cpp)), refY c S (m / c.cpp) (2 * (m % c.cpp) + 1)]
  mask := c.outMask
  id := c.outId
  last := m = c.osSize - 1

/-- The first `n` output packets of the invocation (R180). -/
def refOut (c : Config) (S : Nat → Payload) (n : Nat) : List Packet := (List.range n).map (refPacket c S)

/-! ### The sequence of operations (R109). -/

/-- `DOT i j` (R109). -/
def dotOps (c : Config) : List Instr := [.accinit] ++ List.replicate c.ng .mac ++ [.accwb]

/-- `n` output elements one after another, each a `DOT` (R109). -/
def dotsOps (c : Config) (n : Nat) : List Instr := (List.replicate n (dotOps c)).flatten

/-- `LOAD_TILE; COMPUTE_TILE; STORE_TILE` (R109). -/
def tileOps (c : Config) : List Instr :=
  List.replicate c.tileInPkts .ldin ++ dotsOps c (c.tiling * c.classes) ++ List.replicate c.tileOutPkts .stout

/-- `n` tiles one after another (R109). -/
def tilesOps (c : Config) (n : Nat) : List Instr := (List.replicate n (tileOps c)).flatten

/-- `RUN`, every operation of an invocation in order (R109). -/
def runOps (c : Config) : List Instr :=
  [.start] ++ List.replicate c.offPkts .ldoff ++ List.replicate c.wgtPkts .ldwgt ++ tilesOps c c.nt

/-- What is left of the current output element (R109, R140-R142). -/
def State.dotTodo (s : State) : List Instr :=
  match s.cs with
  | .init => dotOps s.cfg
  | .macs => List.replicate (s.cfg.ng - s.g) .mac ++ [.accwb]
  | .wb => [.accwb]
  | .reserved => []

/-- The operations left until `DONE`, in order: a function of the sequencer tuple and the configuration alone (R31, R166,
R167). -/
def State.todo (s : State) : List Instr :=
  let c := s.cfg
  let later := tilesOps c (c.nt - 1 - s.t)
  match s.phase with
  | .idle => runOps c
  | .loadOffsets =>
    List.replicate (c.offPkts - s.cnt) .ldoff ++ List.replicate c.wgtPkts .ldwgt ++ tilesOps c c.nt
  | .loadWeights => List.replicate (c.wgtPkts - s.cnt) .ldwgt ++ tilesOps c c.nt
  | .loadTile =>
    List.replicate (c.tileInPkts - s.cnt) .ldin ++ dotsOps c (c.tiling * c.classes)
      ++ List.replicate c.tileOutPkts .stout ++ later
  | .computeTile =>
    s.dotTodo ++ dotsOps c (c.tiling * c.classes - 1 - (s.i * c.classes + s.j))
      ++ List.replicate c.tileOutPkts .stout ++ later
  | .storeTile => List.replicate (c.tileOutPkts - s.cnt) .stout ++ later
  | .done => []
  | .reserved => []

end Sys2Proof.Machine
end

