-- ==== Sys2Proof/Safety.lean ====
section
/-! DEFINITION. What counts as a safe run (R205): the invariant of reachable states (R55), the launch premises
(R206), what gone wrong means for a run (R205), and the relation that holds a run against the closed form of its input stream
(R180). -/

namespace Sys2Proof.Machine

open Sys2Proof

/-! ### The invariant (R55) -/

/-- Where the counters stand in each phase (R34-R38, R55). Outside `COMPUTE_TILE` the sub-step is `INIT` (R142). -/
def State.PhaseInv (s : State) : Prop :=
  let c := s.cfg
  match s.phase with
  | .idle => s.cs = .init ∧ s.icnt ≤ c.isSize ∧ s.ocnt ≤ c.osSize
  | .loadOffsets => s.cs = .init ∧ s.cnt < c.offPkts ∧ s.t = 0 ∧ s.icnt = s.cnt ∧ s.ocnt = 0
  | .loadWeights => s.cs = .init ∧ s.cnt < c.wgtPkts ∧ s.t = 0 ∧ s.icnt = c.offPkts + s.cnt ∧ s.ocnt = 0
  | .loadTile =>
    s.cs = .init ∧ s.cnt < c.tileInPkts ∧ s.icnt = c.offPkts + c.wgtPkts + s.t * c.tileInPkts + s.cnt
      ∧ s.ocnt = s.t * c.tileOutPkts
  | .computeTile =>
    s.cs ≠ .reserved ∧ s.i < c.tiling ∧ s.j < c.classes ∧ (s.cs = .macs → s.g < c.ng)
      ∧ s.icnt = c.offPkts + c.wgtPkts + (s.t + 1) * c.tileInPkts ∧ s.ocnt = s.t * c.tileOutPkts
  | .storeTile =>
    s.cs = .init ∧ s.cnt < c.tileOutPkts ∧ s.icnt = c.offPkts + c.wgtPkts + (s.t + 1) * c.tileInPkts
      ∧ s.ocnt = s.t * c.tileOutPkts + s.cnt
  | .done => s.cs = .init ∧ s.icnt = c.isSize ∧ s.ocnt = c.osSize
  | .reserved => False

/-- What holds of storage whatever the working registers, the accumulator and the buffer elements hold: the buffers in
canonical form and within their shapes (R60, R65), the output channel within its capacity (R72), a raised event only in the
phase that takes it (R193), and the id of every packet in `ID_W` bits (R14, R90). A claim about an invocation asks for this
alone: no premise speaks of what the buffers, `acc` or the counters hold at START (R206). -/
structure State.Sound (s : State) : Prop where
  memWf : s.mem.wf s.cfg
  capacity : ∀ n ∈ s.cfg.outCap, s.outCh.length ≤ n
  startIdle : s.startReq = true → s.phase = .idle
  ackDone : s.ackReq = true → s.phase = .done
  ids : ∀ p ∈ s.inCh ++ s.outCh ++ s.received, p.id < 2 ^ s.cfg.idW

/-- The invariant of reachable states (R55): sound storage, the counters of the phase, the tile index in range (R33), and no
reserved code (R106). -/
structure State.Inv (s : State) : Prop extends State.Sound s where
  phaseInv : s.PhaseInv
  tile : s.t < s.cfg.nt

/-! ### Reset (R211) -/

/-- A state after reset of a kernel built with `c` (R211): everything R211 gives a value, whatever the accumulator holds,
which it leaves unspecified, and whatever turns the environment will take. Reset is no move of the machine (log 15), the empty
channels are a premise (log 21), and that neither event is raised is the model's DESIGN CHOICE (log 24). -/
def AfterReset (c : Config) (s : State) : Prop :=
  ∃ (acc : Wide) (sched : List Turn), s = { State.resetWith c with acc := acc, sched := sched }

/-! ### The packets of an invocation -/

/-- The packets that the environment's turns of a list send, as the channel carries them (R44, R179). -/
def sentBy (c : Config) (turns : List Turn) : List Packet :=
  turns.filterMap fun
    | .host (.send p) => some (p.carried c)
    | _ => none

/-- The packets still to be popped, those in the channel and those the environment will send (R44, R179). -/
def State.pending (s : State) : List Packet := s.inCh ++ sentBy s.cfg s.sched

/-- Whichever packets of the invocation are there or will be sent are those of the stream `S`, in order, seen from the point
the run has reached: too few of them is allowed (R189), and packets beyond `IS_SIZE` are not looked at (R191; log 22). The
count of packets already popped is `popped`. It is what every step of a run keeps; a claim about a whole invocation takes `HostSends` below
(R191). -/
def State.Feeds (S : Nat → Payload) (popped : Nat) (s : State) : Prop :=
  ∀ m p, s.pending[m]? = some p → popped + m < s.cfg.isSize → p.data = S (popped + m)

/-- Every packet the invocation still needs is there or will be sent (R189). -/
def State.fed (popped : Nat) (s : State) : Prop := s.cfg.isSize ≤ popped + s.pending.length

/-! ### The launch premises (R206), by name. `CfgValid` is carried by the type `Config`. -/

/-- `t` is the state after `n` steps from `s`, and `DONE` has not been reached: the invocation has not ended. -/
def State.Underway (s : State) (n : Nat) (t : State) : Prop :=
  Host.Core.run core n s = .next t ∧ ∀ m ≤ n, ∀ u : State, Host.Core.run core m s = .next u → u.phase ≠ .done

/-- It is the kernel's turn (R179; log 6). -/
def State.KernelsTurn (s : State) : Prop := ∀ m rest, s.sched ≠ .host m :: rest

/-- `AtIdle` (R206): `start` is raised in `IDLE`. -/
def State.atIdle (s : State) : Prop := s.phase = .idle ∧ s.startReq = true

/-- `InClean` (R206): `in_ch` holds no packet of an earlier invocation at START, a prefix of this invocation's stream at most. -/
def State.InClean (S : Nat → Payload) (s : State) : Prop := s.inCh.map Packet.data <+: (List.range s.cfg.isSize).map S

/-- `HostSends(S)` (R206, R191): the environment appends exactly the packets `S[0 .. IS_SIZE-1]`, those already in the
channel among them. -/
structure State.HostSends (S : Nat → Payload) (s : State) : Prop where
  /-- Each of them comes, in index order. -/
  each : ∀ m < s.cfg.isSize, s.pending[m]?.map Packet.data = some (S m)
  /-- Nothing else comes until `DONE`: with the turn that follows any state before `DONE`, at most `IS_SIZE` have come. -/
  nothingElse : ∀ n t, s.Underway n t → (s.inCh ++ sentBy s.cfg (s.sched.take (n + 1))).length ≤ s.cfg.isSize

/-- `HostDrains` (R206, R190): with a bounded `out_ch` the environment keeps removing packets: wherever STOUT waits for room,
a HOST_RECV is still to come. -/
def State.HostDrains (s : State) : Prop :=
  s.cfg.outCap = none ∨
    ∀ n t, s.Underway n t → t.phase = .storeTile → t.hasRoom = false → Turn.host .recv ∈ t.sched

/-- `NoEarlyStart` (R206, R193): until `DONE` no `start` outside `IDLE`. Reset is no move of the machine at all (R212; log
15). -/
def State.NoEarlyStart (s : State) : Prop :=
  ∀ n t rest, s.Underway n t → t.sched = .host .start :: rest → t.phase = .idle

/-- `Fair` (R206, R225): until `DONE`, an operation that is enabled stays enabled through the environment's turns until the
kernel has its own. Every state has this (log 6). -/
def State.Fair (s : State) : Prop :=
  ∀ n t i, s.Underway n t → t.enabledOp = some i →
    ∃ m u, Turn.kernel ∉ t.sched.take m ∧ Host.Core.run core m t = .next u ∧ u.KernelsTurn ∧ u.enabledOp = some i

/-- All the premises under which an invocation on the stream `S` is launched (R206, R200). -/
structure State.Launch (S : Nat → Payload) (s : State) : Prop where
  atIdle : s.atIdle
  inClean : s.InClean S
  hostSends : s.HostSends S
  hostDrains : s.HostDrains
  noEarlyStart : s.NoEarlyStart
  fair : s.Fair

/-! ### Gone wrong (R205) -/

/-- The run from `s` reaches `DONE`. -/
def State.ReachesDone (s : State) : Prop := ∃ n, ∃ t : State, Host.Core.run core n s = .next t ∧ t.phase = .done

/-- The run from `s` on the stream `S` has gone wrong (R205): it never reaches `DONE`, or its premises are not met. -/
def State.GoneWrong (S : Nat → Payload) (s : State) : Prop := ¬ s.ReachesDone ∨ ¬ s.Launch S

/-- The observation of the invocation (R206) is the closed form of `S` (R180): the run reaches `DONE`, and when it first does
it has pushed exactly the packets `O[0 .. OS_SIZE-1]` since `s`, whether still in the channel or handed over. -/
def State.ObservesClosedForm (S : Nat → Payload) (s : State) : Prop :=
  ∃ n, ∃ t : State, Host.Core.run core n s = .next t ∧ t.phase = .done
    ∧ (∀ m < n, ∀ u : State, Host.Core.run core m s = .next u → u.phase ≠ .done)
    ∧ t.received ++ t.outCh = (s.received ++ s.outCh) ++ refOut s.cfg S s.cfg.osSize

/-! ### A run held against its input stream (R180) -/

/-- `off_buf` holds the offsets of the stream (R127). -/
def State.offLoaded (S : Nat → Payload) (s : State) : Prop := ∀ j < s.cfg.classes, s.offAt j = refOff S j

/-- `w_buf` holds the weights of the stream (R127). -/
def State.wgtLoaded (S : Nat → Payload) (s : State) : Prop :=
  ∀ j < s.cfg.classes, ∀ k < s.cfg.feat, s.wgtAt j k = refWgt s.cfg S j k

/-- `in_buf` holds the rows of the current tile (R132). -/
def State.tileLoaded (S : Nat → Payload) (s : State) : Prop :=
  ∀ i < s.cfg.tiling, ∀ k < s.cfg.feat, s.inpAt i k = refInp s.cfg S (s.t * s.cfg.tiling + i) k

/-- The accumulator holds what the reduction has reached (R140, R141, R147). -/
def State.accTracks (S : Nat → Payload) (s : State) : Prop :=
  let b := s.t * s.cfg.tiling + s.i
  match s.cs with
  | .init => True
  | .macs =>
    s.acc = wrap 32 (sval (refOff S s.j) + refDot s.cfg S b s.j (min (s.g * s.cfg.lanes) s.cfg.feat))
  | .wb => s.acc = refY s.cfg S b s.j
  | .reserved => True

/-- The buffers and the accumulator hold what the stream has put there so far, phase by phase (R85, R127, R132, R144,
R145). -/
def State.buffersTrack (S : Nat → Payload) (s : State) : Prop :=
  let c := s.cfg
  match s.phase with
  | .idle => True
  | .loadOffsets => ∀ j < 2 * s.cnt, s.offAt j = refOff S j
  | .loadWeights =>
    s.offLoaded S ∧ ∀ j < c.classes, ∀ k < c.feat, j * c.fpp + k / 8 < s.cnt → s.wgtAt j k = refWgt c S j k
  | .loadTile =>
    s.offLoaded S ∧ s.wgtLoaded S ∧
      ∀ i < c.tiling, ∀ k < c.feat, i * c.fpp + k / 8 < s.cnt →
        s.inpAt i k = refInp c S (s.t * c.tiling + i) k
  | .computeTile =>
    s.offLoaded S ∧ s.wgtLoaded S ∧ s.tileLoaded S ∧ s.accTracks S ∧
      ∀ i < c.tiling, ∀ j < c.classes, i * c.classes + j < s.i * c.classes + s.j →
        s.outAt i j = refY c S (s.t * c.tiling + i) j
  | .storeTile =>
    s.offLoaded S ∧ s.wgtLoaded S ∧
      ∀ i < c.tiling, ∀ j < c.classes, s.outAt i j = refY c S (s.t * c.tiling + i) j
  | .done => True
  | .reserved => True

/-- A run in progress, or finished and not acknowledged, does what the closed form of its stream `S` says (R180): the
invariant holds, the packets still to come are those of `S`, the buffers hold what `S` put there, and the packets pushed
since START, whether still in the channel or handed to the host, are the first `ocnt` packets of the closed form. `before`
is what had been pushed before START. -/
structure State.Tracks (S : Nat → Payload) (before : List Packet) (s : State) : Prop where
  inv : s.Inv
  running : s.phase ≠ .idle
  feeds : s.Feeds S s.icnt
  buffers : s.buffersTrack S
  pushed : s.received ++ s.outCh = before ++ refOut s.cfg S s.ocnt

/-! ### Relations between two states -/

/-- Two states agree on all control: the configuration, the sequencer tuple, the counts, the events raised and how many
packets each channel holds (R31, R167). -/
def SameControl (s t : State) : Prop :=
  s.cfg = t.cfg ∧ s.phase = t.phase ∧ s.t = t.t ∧ s.cnt = t.cnt ∧ s.i = t.i ∧ s.j = t.j ∧ s.g = t.g ∧ s.cs = t.cs
    ∧ s.icnt = t.icnt ∧ s.ocnt = t.ocnt ∧ s.startReq = t.startReq ∧ s.ackReq = t.ackReq
    ∧ s.inCh.length = t.inCh.length ∧ s.outCh.length = t.outCh.length

end Sys2Proof.Machine
end

