-- ==== Sys2Proof/Certificates/Slice0/Obligations.lean ====
section
/-! DEFINITION. The statements for the provers: what the spec's numbered rules say the kernel does. -/

open Sys2Proof Sys2Proof.Machine

/-! ### The selector and the packet formats -/

/-- R104, R106 (vector V91): the operation of each of the 32 selectors, in rising order. -/
def Obligations.SelectorTableDecodes : Prop :=
  (List.range 32).map (fun w => (decode (BitVec.ofNat 5 w)).toOption) =
    List.replicate 4 (some .start) ++ List.replicate 4 (some .ldoff) ++ List.replicate 4 (some .ldwgt)
      ++ List.replicate 4 (some .ldin) ++ [some .accinit, some .mac, some .accwb, none]
      ++ List.replicate 4 (some .stout) ++ List.replicate 4 (some .ack) ++ List.replicate 4 none

/-- R104: the selector table and its extra enabling conditions decide the operation that is enabled, and nothing else does;
the nine rows are pairwise exclusive, and a selector falls under one of them unless it is reserved. -/
def Obligations.SelectorTableDecidesTheOperation : Prop :=
  (∀ (w : Sel) (i i' : Instr), i.selectedBy w = true → i'.selectedBy w = true → i = i') ∧
  (∀ w : Sel, selWellFormed w = true ↔ ∃ i : Instr, i.selectedBy w = true) ∧
  (∀ (s : State) (i : Instr), s.enabledOp = some i → i.selectedBy s.sel = true) ∧
  ∀ s : State,
    (s.enabledOp = some .start ↔ s.phase = .idle ∧ s.startReq = true) ∧
    (s.enabledOp = some .ldoff ↔ s.phase = .loadOffsets ∧ s.inCh ≠ []) ∧
    (s.enabledOp = some .ldwgt ↔ s.phase = .loadWeights ∧ s.inCh ≠ []) ∧
    (s.enabledOp = some .ldin ↔ s.phase = .loadTile ∧ s.inCh ≠ []) ∧
    (s.enabledOp = some .accinit ↔ s.phase = .computeTile ∧ s.cs = .init) ∧
    (s.enabledOp = some .mac ↔ s.phase = .computeTile ∧ s.cs = .macs) ∧
    (s.enabledOp = some .accwb ↔ s.phase = .computeTile ∧ s.cs = .wb) ∧
    (s.enabledOp = some .stout ↔ s.phase = .storeTile ∧ ∀ n ∈ s.cfg.outCap, s.outCh.length < n) ∧
    (s.enabledOp = some .ack ↔ s.phase = .done ∧ s.ackReq = true)

/-- R103, R105: the codes of the phases and of the sub-steps; the reserved ones stand in no state that meets the invariant;
the sub-step is examined only in `COMPUTE_TILE`. -/
def Obligations.PhaseAndSubStepCodes : Prop :=
  ([Phase.idle, .loadOffsets, .loadWeights, .loadTile, .computeTile, .storeTile, .done, .reserved].map Phase.code
      = [0b000#3, 0b001#3, 0b010#3, 0b011#3, 0b100#3, 0b101#3, 0b110#3, 0b111#3]) ∧
  ([SubStep.init, .macs, .wb, .reserved].map SubStep.code = [0b00#2, 0b01#2, 0b10#2, 0b11#2]) ∧
  (∀ ph : Phase, Phase.ofCode ph.code = ph) ∧ (∀ cs : SubStep, SubStep.ofCode cs.code = cs) ∧
  (∀ s : State, s.Inv → s.phase ≠ .reserved ∧ s.cs ≠ .reserved) ∧
  (∀ (s : State) (cs : SubStep), s.phase ≠ .computeTile → { s with cs := cs }.enabledOp = s.enabledOp)

/-- R122, R156: packing and unpacking are inverse to each other at every width and count that fill the payload, and
lane `e` is bits `e*W` and up of the payload, no bit changed. -/
def Obligations.PackAndUnpackAreInverse : Prop :=
  ∀ w r : Nat, r * w = 64 →
    (∀ d : Payload, pack w (unpack w r d) = d) ∧
    (∀ vs : List (BitVec w), vs.length = r → unpack w r (pack w vs) = vs) ∧
    (∀ (d : Payload) (e : Nat), e < r →
      (unpack w r d)[e]? = some (lane d w e) ∧
        ∀ n < w, (lane d w e).getLsbD n = d.getLsbD (e * w + n))

/-- R106: a reserved selector picks no operation, the state is stuck for good and never final, and no state that meets the
invariant has one. -/
def Obligations.ReservedSelectorIsStuckForGood : Prop :=
  (∀ s : State, s.phase = .reserved ∨ (s.phase = .computeTile ∧ s.cs = .reserved) →
    s.enabledOp = none ∧ s.doneOut = false ∧
    ∃ t, step s = .next t ∧ t.phase = s.phase ∧ t.cs = s.cs ∧
      ((∀ m rest, s.sched ≠ .host m :: rest) → t = { s with sched := s.sched.tail })) ∧
  (∀ s : State, s.Inv → ¬ (s.phase = .reserved ∨ (s.phase = .computeTile ∧ s.cs = .reserved)))

/-! ### Reset -/

/-- R211: what reset leaves, for every configuration. Nothing is said of the accumulator and of the buffers: they are
unspecified. The selector allows START, which is enabled when the host raises `start` and only then; whether it has been raised is
not said here (log 24). -/
def Obligations.ResetLeavesIdle : Prop :=
  ∀ (c : Config) (s : State), AfterReset c s →
    s.cfg = c ∧ s.phase = .idle ∧ s.t = 0 ∧ s.cnt = 0 ∧ s.i = 0 ∧ s.j = 0 ∧ s.g = 0 ∧ s.cs = .init
      ∧ s.icnt = 0 ∧ s.ocnt = 0 ∧ s.inCh = [] ∧ s.outCh = [] ∧ s.idleOut = true ∧ s.doneOut = false
      ∧ s.sel = 0b00000#5 ∧ (∀ b : Bool, { s with startReq := b }.enabledOp = if b then some .start else none)

/-- R53, R55: every state after reset meets the invariant, and so does the model's own `State.reset`, which is one of them
(its configuration is the model's choice, log 1, and so is the accumulator, log 3). No event is raised after reset, so no
operation is enabled: that is the model's choice (log 24). -/
def Obligations.ResetMeetsInvariant : Prop :=
  (∀ (c : Config) (s : State), AfterReset c s →
    s.Inv ∧ s.startReq = false ∧ s.ackReq = false ∧ s.enabledOp = none) ∧
  AfterReset exampleConfig State.reset ∧ State.reset.Inv

/-! ### A step -/

/-- R104, R6: on the kernel's turn a step is the operation the selector picks, the turn taken off the schedule first (the
schedule is the model's own, log 6). -/
def Obligations.StepRunsSelectedOperation : Prop :=
  ∀ (s : State) (i : Instr), (∀ m rest, s.sched ≠ .host m :: rest) → decode s.sel = .ok i →
    step s = exec i { s with sched := s.sched.tail }

/-- R179, R90: the environment's moves; of a packet's routing id the channel carries `ID_W` bits (log 12). That a raised event is held until the operation it enables takes it is the model's
choice (log 7), and so is the schedule (log 6) and the list of packets handed over (log 8). -/
def Obligations.EnvironmentMoves : Prop :=
  ∀ (s : State) (rest : List Turn),
    (∀ p, s.sched = .host (.send p) :: rest →
      step s = .next { s with sched := rest, inCh := s.inCh ++ [{ p with id := p.id % 2 ^ s.cfg.idW }] }) ∧
    (s.sched = .host .recv :: rest → s.outCh = [] → step s = .next { s with sched := rest }) ∧
    (∀ p l, s.sched = .host .recv :: rest → s.outCh = p :: l →
      step s = .next { s with sched := rest, outCh := l, received := s.received ++ [p] }) ∧
    (s.sched = .host .start :: rest → s.phase = .idle → step s = .next { s with sched := rest, startReq := true }) ∧
    (s.sched = .host .ack :: rest → s.phase = .done → step s = .next { s with sched := rest, ackReq := true })

/-- R193: `start` outside `IDLE` and `ack` outside `DONE` change nothing. -/
def Obligations.EventsAtTheWrongTimeChangeNothing : Prop :=
  ∀ (s : State) (m : HostMove) (rest : List Turn), s.sched = .host m :: rest →
    (m = .start ∧ s.phase ≠ .idle) ∨ (m = .ack ∧ s.phase ≠ .done) →
    step s = .next { s with sched := rest }

/-- R179, R86: the environment reaches the channels and the two events, and nothing else: no buffer, no working register. It
cannot remove from the input channel and cannot append to the output channel. -/
def Obligations.EnvironmentReachesOnlyTheChannels : Prop :=
  ∀ (s t : State) (m : HostMove) (rest : List Turn), s.sched = .host m :: rest → step s = .next t →
    t = { s with
      inCh := t.inCh, outCh := t.outCh, received := t.received, startReq := t.startReq, ackReq := t.ackReq
      sched := rest } ∧
    s.inCh <+: t.inCh ∧ t.outCh <:+ s.outCh ∧ t.received ++ t.outCh = s.received ++ s.outCh

/-- R195, R178: `done` is a level: whatever the environment does, a kernel in `DONE` stays there until an `ack` has been raised
and ACK has taken it to `IDLE`. -/
def Obligations.DoneIsHeldUntilAck : Prop :=
  ∀ s t : State, s.phase = .done → step s = .next t →
    (t.phase = .done ∧ t.doneOut = true ∧ t.outCh <:+ s.outCh) ∨
      (s.ackReq = true ∧ t.phase = .idle ∧ t.doneOut = false ∧ t.idleOut = true ∧ t.outCh = s.outCh)

/-! ### The operations -/

/-- R165: START. Whether the raised event is then cleared is left open here (log 7). -/
def Obligations.StartBeginsInvocation : Prop :=
  (∀ x : BitVec 2, decode (0b000#3 ++ x) = .ok .start) ∧
  (∀ s : State, s.phase = .idle → s.startReq = true →
    ∃ t, exec .start s = .next t ∧ t.idleOut = false ∧
      t = { s with
        phase := .loadOffsets, t := 0, cnt := 0, i := 0, j := 0, g := 0, cs := .init, icnt := 0, ocnt := 0
        startReq := t.startReq }) ∧
  (∀ s : State, ¬ (s.phase = .idle ∧ s.startReq = true) → exec .start s = .next s)

/-- R178: ACK. Whether the raised event is then cleared is left open here (log 7). -/
def Obligations.AckReturnsToIdle : Prop :=
  (∀ x : BitVec 2, decode (0b110#3 ++ x) = .ok .ack) ∧
  (∀ s : State, s.phase = .done → s.ackReq = true →
    ∃ t, exec .ack s = .next t ∧ t.doneOut = false ∧ t.idleOut = true ∧
      t = { s with phase := .idle, ackReq := t.ackReq }) ∧
  (∀ s : State, ¬ (s.phase = .done ∧ s.ackReq = true) → exec .ack s = .next s)

/-- R123: LDOFF, with its frame; on an empty channel it waits. -/
def Obligations.LdoffLoadsTwoOffsets : Prop :=
  (∀ x : BitVec 2, decode (0b001#3 ++ x) = .ok .ldoff) ∧
  (∀ (s : State) (p : Packet) (rest : List Packet),
    s.phase = .loadOffsets → s.inCh = p :: rest → s.cnt < s.cfg.offPkts →
    ∃ b : Buf 32,
      exec .ldoff s = .next { s with
        inCh := rest, icnt := s.icnt + 1, mem := { s.mem with off := b }
        phase := if s.cnt + 1 < s.cfg.offPkts then .loadOffsets else .loadWeights
        cnt := if s.cnt + 1 < s.cfg.offPkts then s.cnt + 1 else 0 } ∧
      ∀ a, b.read .off a =
        if a = bufIndex s.cfg .off 0 (2 * s.cnt) then p.data.extractLsb' 0 32
        else if a = bufIndex s.cfg .off 0 (2 * s.cnt + 1) then p.data.extractLsb' 32 32
        else s.mem.off.read .off a) ∧
  (∀ s : State, ¬ (s.phase = .loadOffsets ∧ s.inCh ≠ []) → exec .ldoff s = .next s)

/-- R124: LDWGT, with its frame; on an empty channel it waits. -/
def Obligations.LdwgtLoadsEightWeights : Prop :=
  (∀ x : BitVec 2, decode (0b010#3 ++ x) = .ok .ldwgt) ∧
  (∀ (s : State) (p : Packet) (rest : List Packet) (at0 : Nat),
    s.phase = .loadWeights → s.inCh = p :: rest → s.cnt < s.cfg.wgtPkts →
    at0 = bufIndex s.cfg .wgt (s.cnt / s.cfg.fpp) (8 * (s.cnt % s.cfg.fpp)) →
    ∃ b : Buf 8,
      exec .ldwgt s = .next { s with
        inCh := rest, icnt := s.icnt + 1, mem := { s.mem with wgt := b }
        phase := if s.cnt + 1 < s.cfg.wgtPkts then .loadWeights else .loadTile
        cnt := if s.cnt + 1 < s.cfg.wgtPkts then s.cnt + 1 else 0 } ∧
      ∀ a, b.read .wgt a =
        if at0 ≤ a ∧ a < at0 + 8 then p.data.extractLsb' (8 * (a - at0)) 8 else s.mem.wgt.read .wgt a) ∧
  (∀ s : State, ¬ (s.phase = .loadWeights ∧ s.inCh ≠ []) → exec .ldwgt s = .next s)

/-- R131: LDIN, with its frame; on an empty channel it waits. -/
def Obligations.LdinLoadsEightInputs : Prop :=
  (∀ x : BitVec 2, decode (0b011#3 ++ x) = .ok .ldin) ∧
  (∀ (s : State) (p : Packet) (rest : List Packet) (at0 : Nat),
    s.phase = .loadTile → s.inCh = p :: rest → s.cnt < s.cfg.tileInPkts →
    at0 = bufIndex s.cfg .inp (s.cnt / s.cfg.fpp) (8 * (s.cnt % s.cfg.fpp)) →
    ∃ b : Buf 8,
      exec .ldin s = .next
        (if s.cnt + 1 < s.cfg.tileInPkts then
          { s with inCh := rest, icnt := s.icnt + 1, mem := { s.mem with inp := b }, cnt := s.cnt + 1 }
        else
          { s with
            inCh := rest, icnt := s.icnt + 1, mem := { s.mem with inp := b }
            phase := .computeTile, i := 0, j := 0, g := 0, cs := .init }) ∧
      ∀ a, b.read .inp a =
        if at0 ≤ a ∧ a < at0 + 8 then p.data.extractLsb' (8 * (a - at0)) 8 else s.mem.inp.read .inp a) ∧
  (∀ s : State, ¬ (s.phase = .loadTile ∧ s.inCh ≠ []) → exec .ldin s = .next s)

/-- R140: ACCINIT, with its frame: no byte of any buffer changes. -/
def Obligations.AccinitLoadsOffset : Prop :=
  decode 0b10000#5 = .ok .accinit ∧
  (∀ s : State, s.phase = .computeTile → s.cs = .init → s.j < s.cfg.classes →
    exec .accinit s = .next { s with
      acc := (s.mem.off.read .off (bufIndex s.cfg .off 0 s.j)).signExtend 32, g := 0, cs := .macs }) ∧
  (∀ s : State, ¬ (s.phase = .computeTile ∧ s.cs = .init) → exec .accinit s = .next s)

/-- R141, R136, R137: MAC, with its frame: the accumulator takes the sum of the group's products modulo 2^32, the input
read unsigned and the weight signed, a lane at or past `FEAT` contributing nothing; nothing else changes but `g` or `cs`. -/
def Obligations.MacAddsGroupSum : Prop :=
  decode 0b10001#5 = .ok .mac ∧
  (∀ s : State, s.phase = .computeTile → s.cs = .macs → s.i < s.cfg.tiling → s.j < s.cfg.classes →
    exec .mac s = .next { s with
      acc := BitVec.ofInt 32 (s.acc.toInt + ∑ l ∈ Finset.range s.cfg.lanes,
        if s.g * s.cfg.lanes + l < s.cfg.feat then
          ((s.mem.inp.read .inp (bufIndex s.cfg .inp s.i (s.g * s.cfg.lanes + l))).toNat : Int)
            * (s.mem.wgt.read .wgt (bufIndex s.cfg .wgt s.j (s.g * s.cfg.lanes + l))).toInt
        else 0)
      g := if s.g + 1 < s.cfg.ng then s.g + 1 else s.g
      cs := if s.g + 1 < s.cfg.ng then .macs else .wb }) ∧
  (∀ s : State, ¬ (s.phase = .computeTile ∧ s.cs = .macs) → exec .mac s = .next s)

/-- R142: ACCWB, with its frame. -/
def Obligations.AccwbWritesBackAndAdvances : Prop :=
  decode 0b10010#5 = .ok .accwb ∧
  (∀ s : State, s.phase = .computeTile → s.cs = .wb → s.i < s.cfg.tiling → s.j < s.cfg.classes →
    ∃ b : Buf 32,
      exec .accwb s = .next
        (let s' := { s with mem := { s.mem with out := b }, cs := .init }
        if s.j + 1 < s.cfg.classes then { s' with j := s.j + 1, g := 0 }
        else if s.i + 1 < s.cfg.tiling then { s' with i := s.i + 1, j := 0, g := 0 }
        else { s' with phase := .storeTile, cnt := 0 }) ∧
      ∀ a, b.read .out a = if a = bufIndex s.cfg .out s.i s.j then s.acc else s.mem.out.read .out a) ∧
  (∀ s : State, ¬ (s.phase = .computeTile ∧ s.cs = .wb) → exec .accwb s = .next s)

/-- R158, R98, R99: STOUT, with its frame: no buffer changes. On a full output channel it waits (R72). -/
def Obligations.StoutPushesTwoOutputs : Prop :=
  (∀ x : BitVec 2, decode (0b101#3 ++ x) = .ok .stout) ∧
  (∀ s : State, s.phase = .storeTile → s.hasRoom = true → s.cnt < s.cfg.tileOutPkts →
    exec .stout s = .next { s with
      outCh := s.outCh ++ [{
        data := s.mem.out.read .out (bufIndex s.cfg .out (s.cnt / s.cfg.cpp) (2 * (s.cnt % s.cfg.cpp) + 1))
          ++ s.mem.out.read .out (bufIndex s.cfg .out (s.cnt / s.cfg.cpp) (2 * (s.cnt % s.cfg.cpp)))
        mask := s.cfg.outMask
        id := s.cfg.outId
        last := decide (s.ocnt = s.cfg.osSize - 1) }]
      ocnt := s.ocnt + 1
      phase := if s.cnt + 1 < s.cfg.tileOutPkts then .storeTile else if s.t + 1 < s.cfg.nt then .loadTile else .done
      t := if s.cnt + 1 < s.cfg.tileOutPkts then s.t else if s.t + 1 < s.cfg.nt then s.t + 1 else s.t
      cnt := if s.cnt + 1 < s.cfg.tileOutPkts then s.cnt + 1 else if s.t + 1 < s.cfg.nt then 0 else s.cnt }) ∧
  (∀ s : State, ¬ (s.phase = .storeTile ∧ s.hasRoom = true) → exec .stout s = .next s)

/-- R21, R79, R104: an operation that is not enabled, by the selector or by its extra condition, changes nothing. -/
def Obligations.DisabledOperationChangesNothing : Prop :=
  ∀ (s : State) (i : Instr), s.enabledOp ≠ some i → exec i s = .next s

/-- The model's choice on states no run reaches (log 5): an access to an element that does not exist faults, and says
which. -/
def Obligations.MissingElementFaults : Prop :=
  ∀ s : State,
    (s.phase = .loadOffsets → s.inCh ≠ [] → s.cfg.offPkts ≤ s.cnt →
      exec .ldoff s = .fault (.noElement .off 0 (2 * s.cnt))) ∧
    (s.phase = .loadWeights → s.inCh ≠ [] → s.cfg.wgtPkts ≤ s.cnt →
      exec .ldwgt s = .fault (.noElement .wgt (s.cnt / s.cfg.fpp) (8 * (s.cnt % s.cfg.fpp)))) ∧
    (s.phase = .loadTile → s.inCh ≠ [] → s.cfg.tileInPkts ≤ s.cnt →
      exec .ldin s = .fault (.noElement .inp (s.cnt / s.cfg.fpp) (8 * (s.cnt % s.cfg.fpp)))) ∧
    (s.phase = .computeTile → s.cs = .init → s.cfg.classes ≤ s.j →
      exec .accinit s = .fault (.noElement .off 0 s.j)) ∧
    (s.phase = .computeTile → s.cs = .macs → s.cfg.tiling ≤ s.i →
      exec .mac s = .fault (.noElement .inp s.i 0)) ∧
    (s.phase = .computeTile → s.cs = .macs → s.i < s.cfg.tiling → s.cfg.classes ≤ s.j →
      exec .mac s = .fault (.noElement .wgt s.j 0)) ∧
    (s.phase = .computeTile → s.cs = .wb → s.cfg.tiling ≤ s.i ∨ s.cfg.classes ≤ s.j →
      exec .accwb s = .fault (.noElement .out s.i s.j)) ∧
    (s.phase = .storeTile → s.hasRoom = true → s.cfg.tileOutPkts ≤ s.cnt →
      exec .stout s = .fault (.noElement .out (s.cnt / s.cfg.cpp) (2 * (s.cnt % s.cfg.cpp))))

/-! ### Frames over all operations -/

/-- R60, R7, R33, R37-R45: who writes what. Each buffer, channel, counter and the accumulator is written only by the
operations the spec names, the configuration by none, and the output channel only grows at its tail. -/
def Obligations.OnlyNamedOperationsWrite : Prop :=
  ∀ (i : Instr) (s t : State), exec i s = .next t →
    t.cfg = s.cfg ∧ t.sched = s.sched ∧ t.received = s.received ∧
    (i ≠ .ldoff → t.mem.off = s.mem.off) ∧
    (i ≠ .ldwgt → t.mem.wgt = s.mem.wgt) ∧
    (i ≠ .ldin → t.mem.inp = s.mem.inp) ∧
    (i ≠ .accwb → t.mem.out = s.mem.out) ∧
    (i ≠ .accinit → i ≠ .mac → t.acc = s.acc) ∧
    (i ≠ .ldoff → i ≠ .ldwgt → i ≠ .ldin → t.inCh = s.inCh ∧ (i ≠ .start → t.icnt = s.icnt)) ∧
    (i ≠ .stout → t.outCh = s.outCh ∧ (i ≠ .start → t.ocnt = s.ocnt ∧ t.t = s.t)) ∧
    (i ≠ .start → t.startReq = s.startReq) ∧ (i ≠ .ack → t.ackReq = s.ackReq) ∧
    (∃ popped, s.inCh = popped ++ t.inCh ∧ popped.length ≤ 1) ∧
    (∃ pushed, t.outCh = s.outCh ++ pushed ∧ pushed.length ≤ 1)

/-- R166: every transition between phases, the operation that makes it and its condition; there is no other. -/
def Obligations.PhaseTransitionsAreThoseOfTheTable : Prop :=
  ∀ (i : Instr) (s t : State), s.t < s.cfg.nt → exec i s = .next t → t.phase ≠ s.phase →
    (i = .start ∧ s.phase = .idle ∧ t.phase = .loadOffsets ∧ s.startReq = true) ∨
    (i = .ldoff ∧ s.phase = .loadOffsets ∧ t.phase = .loadWeights ∧ s.cnt = s.cfg.offPkts - 1) ∨
    (i = .ldwgt ∧ s.phase = .loadWeights ∧ t.phase = .loadTile ∧ s.cnt = s.cfg.wgtPkts - 1) ∨
    (i = .ldin ∧ s.phase = .loadTile ∧ t.phase = .computeTile ∧ s.cnt = s.cfg.tileInPkts - 1) ∨
    (i = .accwb ∧ s.phase = .computeTile ∧ t.phase = .storeTile ∧ s.i = s.cfg.tiling - 1
      ∧ s.j = s.cfg.classes - 1) ∨
    (i = .stout ∧ s.phase = .storeTile ∧ t.phase = .loadTile ∧ s.cnt = s.cfg.tileOutPkts - 1
      ∧ s.t + 1 < s.cfg.nt ∧ t.t = s.t + 1) ∨
    (i = .stout ∧ s.phase = .storeTile ∧ t.phase = .done ∧ s.cnt = s.cfg.tileOutPkts - 1
      ∧ s.t + 1 = s.cfg.nt) ∨
    (i = .ack ∧ s.phase = .done ∧ t.phase = .idle ∧ s.ackReq = true)

/-- R167: control depends on no payload bit, no buffer element and not on `acc`: two states that agree on control take
operations that agree on control again. -/
def Obligations.ControlIgnoresData : Prop :=
  ∀ (i : Instr) (s₁ s₂ : State), SameControl s₁ s₂ →
    (∀ t₁, exec i s₁ = .next t₁ → ∃ t₂, exec i s₂ = .next t₂ ∧ SameControl t₁ t₂) ∧
    (∀ f, exec i s₁ = .fault f → exec i s₂ = .fault f)

/-- R100, R192: the sideband of the input packets has no effect whatever: two states whose input packets carry the same
payloads take every operation to states that differ in the sideband of the packets left, at most. -/
def Obligations.InputSidebandIsIgnored : Prop :=
  ∀ (i : Instr) (s : State) (q : List Packet), q.map Packet.data = s.inCh.map Packet.data →
    (∀ t, exec i s = .next t →
      ∃ q', exec i { s with inCh := q } = .next { t with inCh := q' } ∧
        q'.map Packet.data = t.inCh.map Packet.data) ∧
    (∀ f, exec i s = .fault f → exec i { s with inCh := q } = .fault f)

/-! ### Invariants -/

/-- Every step, the environment's moves among them, keeps the buffers in canonical form and within their shapes (R60,
R65). -/
def Obligations.StepKeepsBuffersCanonical : Prop :=
  ∀ s t : State, s.mem.wf s.cfg → step s = .next t → t.mem.wf t.cfg ∧ t.cfg = s.cfg

/-- R55: every step, the environment's moves among them, keeps the invariant: the counters in the range of their phase, the
input cursor and the global output count where R55 puts them, no reserved code, every packet's id in `ID_W` bits (R90).
The invariant's two clauses that an event is raised only in the phase that takes it are the model's choice and no rule of the spec: they
hold because START and ACK clear the bit (log 7). -/
def Obligations.StepKeepsInvariant : Prop :=
  ∀ s t : State, s.Inv → step s = .next t → t.Inv

/-- R185, R149, R65: in a state that meets the invariant no step stops: there is no fault and no refusal, no index is out of
range. -/
def Obligations.NoStepEverStops : Prop :=
  ∀ s : State, s.Inv → ∃ t, step s = .next t

/-- R159: the flag of the packet pushed is 1 exactly when the global count stands at `OS_SIZE - 1`, that is on the last
packet of the last tile. -/
def Obligations.LastFlagMarksTheFinalPacket : Prop :=
  ∀ s : State, s.Inv → s.phase = .storeTile → s.hasRoom = true →
    ∃ t p, exec .stout s = .next t ∧ t.outCh = s.outCh ++ [p] ∧
      (p.last = true ↔ s.ocnt = s.cfg.osSize - 1) ∧
      (p.last = true ↔ s.t = s.cfg.nt - 1 ∧ s.cnt = s.cfg.tileOutPkts - 1)

/-- R111: the format of an input packet is decided by its position in the stream. -/
def Obligations.PositionDecidesTheFormat : Prop :=
  ∀ s : State, s.Inv →
    (s.fetch = .ok .ldoff → s.icnt < s.cfg.offPkts) ∧
    (s.fetch = .ok .ldwgt → s.cfg.offPkts ≤ s.icnt ∧ s.icnt < s.cfg.offPkts + s.cfg.wgtPkts) ∧
    (s.fetch = .ok .ldin → s.cfg.offPkts + s.cfg.wgtPkts ≤ s.icnt ∧ s.icnt < s.cfg.isSize)

/-- R190: when the kernel is stuck, and what lifts it. (A capacity of 0, which no `HOST_RECV` can lift, is shut out by the
channel not being empty.) -/
def Obligations.StuckExactlyWhenWaiting : Prop :=
  ∀ s : State, s.Inv →
    (s.stuck = true ↔
      ((s.phase = .loadOffsets ∨ s.phase = .loadWeights ∨ s.phase = .loadTile) ∧ s.inCh = []) ∨
        (s.phase = .storeTile ∧ s.hasRoom = false)) ∧
    (s.stuck = true → s.cfg.outCap = none → s.inCh = []) ∧
    (s.phase = .computeTile → s.stuck = false) ∧
    (∀ p, s.stuck = true → s.phase ≠ .storeTile → (s.hostMove (.send p)).stuck = false) ∧
    (s.stuck = true → s.phase = .storeTile → s.outCh ≠ [] → (s.hostMove .recv).stuck = false)

/-- R189: while the environment does nothing, a kernel with no operation enabled stays as it is, however many steps pass: it
does not time out, does not reach `DONE` and pushes nothing. -/
def Obligations.WaitingKernelStaysForEver : Prop :=
  ∀ s : State, s.sched = [] → s.enabledOp = none → ∀ k, Host.Core.run core k s = .next s

/-! ### The run as a sequence of operations -/

/-- R109, R166, R167: the operations left until `DONE` are a fixed list, a function of the sequencer tuple and the
configuration; the operation enabled is its head, and performing it leaves the tail. -/
def Obligations.OperationsFollowTheFixedSequence : Prop :=
  ∀ (s : State) (i : Instr), s.Inv → s.enabledOp = some i → i ≠ .ack →
    ∃ t, exec i s = .next t ∧ s.todo = i :: t.todo

/-- R175, R183: the number of operations of a run, and how many of them pop and push. -/
def Obligations.RunHasExactlyStepsOperations : Prop :=
  ∀ c : Config,
    (runOps c).length = c.steps ∧
    c.steps = 1 + c.offPkts + c.wgtPkts
      + c.nt * (c.tileInPkts + c.tiling * c.classes * (c.ng + 2) + c.tileOutPkts) ∧
    c.steps = 1 + c.isSize + c.osSize + c.batch * c.classes * (c.ng + 2) ∧
    (runOps c).countP (fun i => i = .ldoff || i = .ldwgt || i = .ldin) = c.isSize ∧
    (runOps c).count .stout = c.osSize

/-- R225, R190: a run in progress reaches `DONE`, whatever the environment does meanwhile, if it sends every packet and, where the
output channel is bounded, keeps draining it: within as many steps as there are turns scheduled and operations left. -/
def Obligations.RunReachesDone : Prop :=
  ∀ s : State, s.Inv → s.phase ≠ .idle → s.HostDrains → s.fed s.icnt →
    ∃ n ≤ s.sched.length + s.todo.length, ∃ t, Host.Core.run core n s = .next t ∧ t.phase = .done

/-! ### The run against the closed form -/

/-- R180, R127, R132, R145, R162, R184: every step, under every interleaving of the environment's moves, keeps a run in
agreement with the closed form of its input stream; only ACK ends the agreement, when exactly the packets of the closed form
have been pushed. The agreement contains the invariant, whose clauses on the raised events are the model's choice (log 7). -/
def Obligations.StepKeepsTrackingTheStream : Prop :=
  ∀ (S : Nat → Payload) (before : List Packet) (s t : State), s.Tracks S before → step s = .next t →
    t.Tracks S before ∨
      (s.phase = .done ∧ t.phase = .idle ∧
        t.received ++ t.outCh = before ++ refOut s.cfg S s.cfg.osSize)

/-- R165, R71, R206: START, at idle and with the stream `S` to come, begins a run in agreement with `S`, whatever an earlier
run left in the buffers, the accumulator and the counters (no premise speaks of the counters). That START then
clears the raised event, which the invariant asks for, is the model's choice (log 7). -/
def Obligations.StartBeginsTrackingTheStream : Prop :=
  ∀ (S : Nat → Payload) (s : State), s.Sound → s.atIdle → s.Feeds S 0 → (∀ m rest, s.sched ≠ .host m :: rest) →
    ∃ t, step s = .next t ∧ t.Tracks S (s.received ++ s.outCh)

/-- R180, R183, R161, R191: with no packet of an earlier invocation in `in_ch` and exactly the `IS_SIZE` packets of the stream sent
until `DONE`, whatever the environment does otherwise, whatever the capacity of the output channel and whatever an
earlier run left behind, a run that reaches `DONE` has popped exactly `IS_SIZE` packets and pushed exactly the `OS_SIZE`
packets of the closed form of the stream it popped, in order, whether they are still in the channel or handed over, and just
the last of them carries the flag. -/
def Obligations.EveryRunToDoneIsTheClosedForm : Prop :=
  ∀ (S : Nat → Payload) (s t : State) (n : Nat), s.Sound → s.atIdle → s.InClean S → s.HostSends S →
    Host.Core.run core n s = .next t → t.phase = .done →
    (∀ m < n, ∀ u, Host.Core.run core m s = .next u → u.phase ≠ .done) →
    t.icnt = s.cfg.isSize ∧ t.ocnt = s.cfg.osSize
      ∧ t.received ++ t.outCh = (s.received ++ s.outCh) ++ refOut s.cfg S s.cfg.osSize
      ∧ t.inCh = [] ∧ t.pending.length + s.cfg.isSize = s.pending.length
      ∧ (refOut s.cfg S s.cfg.osSize).length = s.cfg.osSize
      ∧ ∀ m p, (refOut s.cfg S s.cfg.osSize)[m]? = some p → (p.last = true ↔ m + 1 = s.cfg.osSize)

/-- R180, R183, R161, R2: the invocation as a function of its input stream. From idle, with `start` raised and exactly the
`IS_SIZE` packets of the stream in the channel (R191), after exactly `STEPS` steps the kernel is in `DONE`, has popped exactly
`IS_SIZE` packets, has pushed exactly the `OS_SIZE` packets of the closed form, and just the last of them carries the flag.
No packet is left in `in_ch`. -/
def Obligations.InvocationIsTheClosedForm : Prop :=
  ∀ (S : Nat → Payload) (s : State), s.Sound → s.atIdle → s.sched = [] → s.cfg.outCap = none → s.InClean S →
    s.HostSends S →
    ∃ t, Host.Core.run core s.cfg.steps s = .next t ∧ t.phase = .done ∧ t.cfg = s.cfg
      ∧ t.icnt = s.cfg.isSize ∧ t.ocnt = s.cfg.osSize ∧ t.inCh = []
      ∧ t.outCh = s.outCh ++ refOut s.cfg S s.cfg.osSize
      ∧ (refOut s.cfg S s.cfg.osSize).length = s.cfg.osSize
      ∧ ∀ m p, (refOut s.cfg S s.cfg.osSize)[m]? = some p → (p.last = true ↔ m + 1 = s.cfg.osSize)

/-- R181, R182, R148: neither `TILING`, nor `LANES`, nor anything an earlier run left behind affects the output stream, for
the exact stream of an invocation (R191). -/
def Obligations.TilingLanesAndLeftoversDoNotMatter : Prop :=
  ∀ (S : Nat → Payload) (s₁ s₂ : State),
    (∀ s ∈ [s₁, s₂], s.Sound ∧ s.atIdle ∧ s.sched = [] ∧ s.cfg.outCap = none ∧ s.InClean S ∧ s.HostSends S) →
    s₂.cfg.toParams = { s₁.cfg.toParams with tiling := s₂.cfg.tiling, lanes := s₂.cfg.lanes } →
    ∃ t₁ t₂ out, Host.Core.run core s₁.cfg.steps s₁ = .next t₁ ∧ Host.Core.run core s₂.cfg.steps s₂ = .next t₂
      ∧ t₁.phase = .done ∧ t₂.phase = .done ∧ out.length = s₁.cfg.osSize
      ∧ t₁.outCh = s₁.outCh ++ out ∧ t₂.outCh = s₂.outCh ++ out

/-- R180, R200, R205, R206: the invocation under its launch premises, every one by name: the environment sends exactly the
`IS_SIZE` packets of `S` and, where the output channel is bounded, drains it. `DONE` is reached within as many steps as
there are turns scheduled and operations in a run, exactly the packets of the closed form have then been pushed, and no packet is
left in `in_ch`. That a raised `start` is held until START takes it is the model's choice (log 7). -/
def Obligations.LaunchedRunIsTheClosedForm : Prop :=
  ∀ (S : Nat → Payload) (s : State), s.Sound → s.Launch S →
    ∃ n ≤ s.sched.length + s.cfg.steps, ∃ t, Host.Core.run core n s = .next t ∧ t.phase = .done
      ∧ (∀ m < n, ∀ u, Host.Core.run core m s = .next u → u.phase ≠ .done)
      ∧ t.icnt = s.cfg.isSize ∧ t.ocnt = s.cfg.osSize ∧ t.inCh = []
      ∧ t.received ++ t.outCh = (s.received ++ s.outCh) ++ refOut s.cfg S s.cfg.osSize

/-- R205: a run that has not gone wrong has pushed exactly the right packets, there is no third outcome, and a run goes wrong only
where a premise fails. That a raised `start` is held until START takes it is the model's choice (log 7). -/
def Obligations.NoThirdOutcome : Prop :=
  ∀ (S : Nat → Payload) (s : State), s.Sound →
    (s.GoneWrong S ∨ s.ObservesClosedForm S) ∧ (s.GoneWrong S ↔ ¬ s.Launch S)

/-- R206, R225: the premise `Fair` holds of every run of the model, whatever its schedule. Two choices of the model carry it: the
schedule (log 6), and that a raised `start` is held until START takes it, so that an enabled START stays enabled through the
environment's turns (log 7). -/
def Obligations.EveryRunIsFair : Prop := ∀ s : State, s.Fair

/-- R191: too many packets, what the machine does with them and nothing of the output. A run that reaches `DONE` has popped exactly
`IS_SIZE` packets, and those sent beyond that are left, every one in order; the next START, on the
kernel's turn, leaves them, so that they are the first of the next invocation's stream. -/
def Obligations.SurplusPacketsStayInTheChannel : Prop :=
  (∀ (s t : State) (n : Nat), s.Sound → s.atIdle →
    Host.Core.run core n s = .next t → t.phase = .done →
    (∀ m < n, ∀ u, Host.Core.run core m s = .next u → u.phase ≠ .done) →
    t.icnt = s.cfg.isSize ∧ t.pending = s.pending.drop s.cfg.isSize) ∧
  (∀ s t : State, s.atIdle → s.KernelsTurn → step s = .next t →
    t.phase = .loadOffsets ∧ t.icnt = 0 ∧ t.inCh = s.inCh ∧ t.pending = s.pending)

/-- R189: too few packets. The run never reaches `DONE`, in any number of steps and whatever else the environment does; what it has
pushed is a beginning of the closed form without its last packet, so that no packet carries the flag. -/
def Obligations.ShortStreamNeverReachesDone : Prop :=
  ∀ (S : Nat → Payload) (s : State), s.Sound → s.atIdle → s.Feeds S 0 → s.pending.length < s.cfg.isSize →
    ∀ n t, Host.Core.run core n s = .next t → t.phase ≠ .done ∧
      ∃ k < s.cfg.osSize, t.received ++ t.outCh = (s.received ++ s.outCh) ++ refOut s.cfg S k ∧
        ∀ p ∈ refOut s.cfg S k, p.last = false

/-- R144: the pseudo-operation `DOT i j`: `NG + 2` steps leave one element of `out_buf` at the wrapped exact sum, and change
nothing else but the accumulator and the loop counters (with the phase and its count where the element was the last). -/
def Obligations.DotLeavesTheWrappedSum : Prop :=
  ∀ s : State, s.phase = .computeTile → s.cs = .init → s.sched = [] → s.i < s.cfg.tiling → s.j < s.cfg.classes →
    ∃ t, Host.Core.run core (s.cfg.ng + 2) s = .next t ∧
      t.outAt s.i s.j = BitVec.ofInt 32 ((s.offAt s.j).toInt
        + ∑ k ∈ Finset.range s.cfg.feat, ((s.inpAt s.i k).toNat : Int) * (s.wgtAt s.j k).toInt) ∧
      (∀ a, a ≠ bufIndex s.cfg .out s.i s.j → t.mem.out.read .out a = s.mem.out.read .out a) ∧
      t.phase = (if s.j + 1 < s.cfg.classes ∨ s.i + 1 < s.cfg.tiling then .computeTile else .storeTile) ∧
      t = { s with
        acc := t.acc, mem := { s.mem with out := t.mem.out }, i := t.i, j := t.j, g := t.g, cs := .init
        phase := t.phase, cnt := if t.phase = .storeTile then 0 else s.cnt }

/-- R145: the pseudo-operation `COMPUTE_TILE`. -/
def Obligations.ComputeTileFillsTheOutputBuffer : Prop :=
  ∀ s : State, s.phase = .computeTile → s.cs = .init → s.sched = [] → s.i = 0 → s.j = 0 →
    ∃ t, Host.Core.run core (s.cfg.tiling * s.cfg.classes * (s.cfg.ng + 2)) s = .next t ∧
      (∀ i < s.cfg.tiling, ∀ j < s.cfg.classes,
        t.outAt i j = BitVec.ofInt 32 ((s.offAt j).toInt
          + ∑ k ∈ Finset.range s.cfg.feat, ((s.inpAt i k).toNat : Int) * (s.wgtAt j k).toInt)) ∧
      t = { s with
        acc := t.acc, mem := { s.mem with out := t.mem.out }, i := t.i, j := t.j, g := t.g, cs := .init
        phase := .storeTile, cnt := 0 }

/-! ### Arithmetic -/

/-- R147: wrapping at every step equals wrapping once at the end, and a wider register on the way changes nothing. -/
def Obligations.WrappingEachStepIsWrappingOnce : Prop :=
  (∀ (n : Nat) (a : Int) (l : List Int),
    l.foldl (fun r z => wrap n (sval r + z)) (wrap n a) = wrap n (a + l.sum)) ∧
  (∀ (n m : Nat) (z : Int), n ≤ m → wrap n (sval (wrap m z)) = wrap n z)

/-- R148: the groups of every engine width add up to the plain sum over the features. -/
def Obligations.GroupsPartitionTheFeatures : Prop :=
  ∀ (c : Config) (x w : Nat → Narrow),
    ∑ g ∈ Finset.range c.ng, gsum c x w g
      = ∑ k ∈ Finset.range c.feat, ((x k).toNat : Int) * (w k).toInt

/-- R136: the product is exact, its range, the range is reached at both ends, and a signed 16-bit output holds it. -/
def Obligations.ProductRange : Prop :=
  (∀ x w : Narrow, prod x w = (x.toNat : Int) * w.toInt ∧ -32640 ≤ prod x w ∧ prod x w ≤ 32385
    ∧ sval (wrap 16 (prod x w)) = prod x w) ∧
  prod 0xFF#8 0x80#8 = -32640 ∧ prod 0xFF#8 0x7F#8 = 32385

/-- R137: the group sum is the sum of the group's products, and its range for `LANES = 32`. -/
def Obligations.GroupSumRange : Prop :=
  ∀ (c : Config) (x w : Nat → Narrow) (g : Nat),
    gsum c x w g = ∑ k ∈ Finset.Ico (g * c.lanes) (min ((g + 1) * c.lanes) c.feat), prod (x k) (w k) ∧
    (c.lanes = 32 → -1044480 ≤ gsum c x w g ∧ gsum c x w g ≤ 1036320 ∧ sval (wrap 21 (gsum c x w g)) = gsum c x w g)

/-- R138: the balanced adder tree of `ceil(log2 n)` levels over `n` values gives their sum, on exact integers, and on
`W_OUT`-bit nodes that wrap; adding its output to the accumulator is the accumulator update of R139. -/
def Obligations.AdderTreeIsThePlainSum : Prop :=
  ∀ (l : List Int) (acc : Wide), l ≠ [] →
    treeLevels (Nat.clog 2 l.length) l = [l.sum] ∧
    treeLevels (Nat.clog 2 l.length) (l.map (wrap 32)) = [wrap 32 l.sum] ∧
    accAdd acc l.sum = acc + wrap 32 l.sum

/-- R12: the accumulator-fit obligation in numbers. -/
def Obligations.AccFitsBound : Prop :=
  ∀ c : Config, c.accFits ↔ c.feat ≤ 65792

/-- R150: what the accumulator-fit obligation buys: the sum of products alone stays in range, and the stored output is exact
whenever the whole sum is in range. -/
def Obligations.AccFitsKeepsSumsExact : Prop :=
  ∀ (c : Config) (x w : Nat → Narrow) (off : Wide), c.accFits →
    (-2147483648 ≤ ∑ k ∈ Finset.range c.feat, prod (x k) (w k) ∧
      ∑ k ∈ Finset.range c.feat, prod (x k) (w k) < 2147483648) ∧
    (-2147483648 ≤ sval off + ∑ k ∈ Finset.range c.feat, prod (x k) (w k) →
      sval off + ∑ k ∈ Finset.range c.feat, prod (x k) (w k) < 2147483648 →
      sval (wrap 32 (sval off + ∑ k ∈ Finset.range c.feat, prod (x k) (w k)))
        = sval off + ∑ k ∈ Finset.range c.feat, prod (x k) (w k))

/-! ### The configuration -/

/-- R186, R187: what `CFGCHK` reports, in the order of the checks, under which number; no machine has a configuration that
fails it. -/
def Obligations.CfgchkReportsTheFirstFailure : Prop :=
  ∀ p : Params,
    let classes := 2 ≤ p.classes ∧ 2 ∣ p.classes
    let feat := 8 ≤ p.feat ∧ 8 ∣ p.feat
    let batch := 1 ≤ p.tiling ∧ 1 ≤ p.batch ∧ p.tiling ∣ p.batch
    let width := 2 * p.wOff = p.payloadW ∧ 8 * p.wWgt = p.payloadW ∧ 8 * p.wIn = p.payloadW ∧ 2 * p.wOut = p.payloadW
    (p.cfgchk = some .cfgClasses ↔ ¬ classes) ∧
    (p.cfgchk = some .cfgFeat ↔ classes ∧ ¬ feat) ∧
    (p.cfgchk = some .cfgBatch ↔ classes ∧ feat ∧ ¬ batch) ∧
    (p.cfgchk = some .cfgWidth ↔ classes ∧ feat ∧ batch ∧ ¬ width) ∧
    (p.cfgchk = none ↔ classes ∧ feat ∧ batch ∧ width) ∧
    (p.cfgchk ≠ none → ¬ ∃ s : State, s.cfg.toParams = p) ∧
    [ConfigError.cfgClasses, .cfgFeat, .cfgBatch, .cfgWidth].map ConfigError.code = [1, 2, 3, 4]

/-- R11: the derived constants fit together, under the checks every configuration has passed. -/
def Obligations.StreamSizesAddUp : Prop :=
  ∀ c : Config,
    c.isSize = c.offPkts + c.wgtPkts + c.nt * c.tileInPkts ∧ c.osSize = c.nt * c.tileOutPkts
      ∧ c.nt * c.tiling = c.batch ∧ 2 * c.cpp = c.classes ∧ 8 * c.fpp = c.feat
      ∧ (c.ng - 1) * c.lanes < c.feat ∧ c.feat ≤ c.ng * c.lanes ∧ 1 ≤ c.ng

/-- R66: the features of one group lie in different banks, and no two elements share a place. -/
def Obligations.GroupFeaturesLieInDifferentBanks : Prop :=
  ∀ (c : Config) (r r' k k' : Nat), k < c.feat → k' < c.feat →
    (k / c.lanes = k' / c.lanes → bank c k = bank c k' → k = k') ∧
    (bank c k = bank c k' → bankAddr c r k = bankAddr c r' k' → r = r' ∧ k = k') ∧
    bank c k < c.lanes
end

