-- ==== Sys2Proof/Laws/Buf.lean ====
section
/-! SUPPORT. The laws of a buffer: what a write reads back as, what it leaves alone, and that it keeps the canonical form. -/

namespace Sys2Proof.Machine

open Sys2Proof

variable {w : Nat}

@[simp] theorem Buf.find_nil (a : Nat) : Buf.find a ([] : Buf w) = none := rfl

theorem Buf.find_write (a a' : Nat) (v : BitVec w) (b : Buf w) :
    Buf.find a' (Buf.write a v b) = if a' = a then some v else Buf.find a' b := by
  induction b with
  | nil => simp only [Buf.write, Buf.find, eq_comm (a := a) (b := a')]
  | cons e r ih =>
    obtain ⟨k, x⟩ := e
    simp only [Buf.write]
    split
    · simp only [Buf.find, eq_comm (a := a) (b := a')]
    · split
      · subst a
        by_cases h : k = a' <;> simp [Buf.find, h, eq_comm]
        intro h'
        exact absurd h'.symm h
      · by_cases h : k = a'
        · subst k
          simp [Buf.find]
          omega
        · simp [Buf.find, h, ih]

/-- Reading after one write: the value written at its index, what was there before elsewhere. -/
theorem Buf.read_write (id : BufId) (a a' : Nat) (v : BitVec w) (b : Buf w) :
    (Buf.write a v b).read id a' = if a' = a then v else b.read id a' := by
  unfold Buf.read
  rw [Buf.find_write]
  split <;> rfl

/-- Reading after consecutive writes: the values written in their range, what was there before elsewhere. -/
theorem Buf.read_writeRun (id : BufId) (a a' : Nat) (vs : List (BitVec w)) (b : Buf w) :
    (Buf.writeRun a vs b).read id a' = if a ≤ a' then vs[a' - a]?.getD (b.read id a') else b.read id a' := by
  induction vs generalizing a b with
  | nil => simp [Buf.writeRun]
  | cons v vs ih =>
    rw [Buf.writeRun, ih, Buf.read_write]
    by_cases h : a' = a
    · subst a'
      simp
    · by_cases h' : a ≤ a'
      · obtain ⟨d, rfl⟩ : ∃ d, a' = a + 1 + d := ⟨a' - a - 1, by omega⟩
        have h1 : a + 1 + d - a = d + 1 := by omega
        have h2 : a + 1 ≤ a + 1 + d := by omega
        have h3 : a ≤ a + 1 + d := by omega
        simp [h1, h2, h3, h]
      · have : ¬ a + 1 ≤ a' := by omega
        simp [h, h', this]

/-- The empty buffer is in canonical form. -/
theorem Buf.wf_nil (n : Nat) : Buf.wf n ([] : Buf w) := ⟨List.Pairwise.nil, nofun⟩

theorem Buf.mem_write {a : Nat} {v : BitVec w} {b : Buf w} {e : Nat × BitVec w} (h : e ∈ Buf.write a v b) :
    e.1 = a ∨ e ∈ b := by
  induction b with
  | nil => simp_all [Buf.write]
  | cons f r ih =>
    obtain ⟨k, x⟩ := f
    simp only [Buf.write] at h
    split at h
    · rcases List.mem_cons.1 h with rfl | h
      · exact .inl rfl
      · exact .inr h
    · split at h
      · rcases List.mem_cons.1 h with rfl | h
        · exact .inl rfl
        · exact .inr (List.mem_cons_of_mem _ h)
      · rcases List.mem_cons.1 h with rfl | h
        · exact .inr List.mem_cons_self
        · exact (ih h).imp_right (List.mem_cons_of_mem _)

/-- A write within the buffer keeps its canonical form. -/
theorem Buf.wf_write {n a : Nat} {v : BitVec w} {b : Buf w} (ha : a < n) (h : b.wf n) : (Buf.write a v b).wf n := by
  constructor
  · have hs := h.1
    clear h
    induction b with
    | nil => simp [Buf.write]
    | cons f r ih =>
      obtain ⟨k, x⟩ := f
      rw [List.pairwise_cons] at hs
      simp only [Buf.write]
      split
      · rename_i hlt
        refine List.pairwise_cons.2 ⟨fun e he => ?_, List.pairwise_cons.2 hs⟩
        rcases List.mem_cons.1 he with rfl | he
        · exact hlt
        · exact Nat.lt_trans hlt (hs.1 e he)
      · split
        · rename_i _ heq
          subst heq
          exact List.pairwise_cons.2 hs
        · refine List.pairwise_cons.2 ⟨fun e he => ?_, ih hs.2⟩
          rcases Buf.mem_write he with h' | h'
          · simp only [h']
            omega
          · exact hs.1 e h'
  · intro e he
    rcases Buf.mem_write he with h' | h'
    · omega
    · exact h.2 e h'

/-- Consecutive writes within the buffer keep its canonical form. -/
theorem Buf.wf_writeRun {n a : Nat} {vs : List (BitVec w)} {b : Buf w} (ha : a + vs.length ≤ n) (h : b.wf n) :
    (Buf.writeRun a vs b).wf n := by
  induction vs generalizing a b with
  | nil => exact h
  | cons v vs ih =>
    simp only [List.length_cons] at ha
    exact ih (by omega) (Buf.wf_write (by omega) h)

/-- Elements that exist lie within the buffer. -/
theorem bufIndex_lt {c : Config} {b : BufId} {r k n : Nat} (h : bufHolds c b r k n = true) :
    bufIndex c b r k + n ≤ bufSize c b := by
  simp only [bufHolds, decide_eq_true_eq] at h
  obtain ⟨hr, hk⟩ := h
  unfold bufIndex bufSize
  calc r * bufCols c b + k + n ≤ r * bufCols c b + bufCols c b := by omega
    _ = (r + 1) * bufCols c b := (Nat.succ_mul _ _).symm
    _ ≤ bufRows c b * bufCols c b := Nat.mul_le_mul_right _ hr

/-- Different elements of a buffer have different linear indices (R61-R64). -/
theorem bufIndex_inj {c : Config} {b : BufId} {r r' k k' : Nat} (hk : k < bufCols c b) (hk' : k' < bufCols c b)
    (h : bufIndex c b r k = bufIndex c b r' k') : r = r' ∧ k = k' := by
  unfold bufIndex at h
  have hd := congrArg (· / bufCols c b) h
  have hm := congrArg (· % bufCols c b) h
  have hpos : 0 < bufCols c b := by omega
  simp only [Nat.mul_comm _ (bufCols c b), Nat.mul_add_div hpos, Nat.mul_add_mod, Nat.div_eq_of_lt hk,
    Nat.div_eq_of_lt hk', Nat.mod_eq_of_lt hk, Nat.mod_eq_of_lt hk'] at hd hm
  omega

end Sys2Proof.Machine
end

