-- ==== Sys2Proof/Laws/Config.lean ====
section
/-! SUPPORT. What the static check gives every configuration (R8, R10), in the form the arithmetic of the model uses. -/

namespace Sys2Proof

variable (c : Config)

/-- Everything `CFGCHK` and the decided widths say of a configuration (R9, R10, R186). -/
theorem Config.checked :
    (2 ≤ c.classes ∧ c.classes % 2 = 0) ∧ (8 ≤ c.feat ∧ c.feat % 8 = 0)
      ∧ (1 ≤ c.tiling ∧ 1 ≤ c.batch ∧ c.batch % c.tiling = 0)
      ∧ (c.payloadW = 64 ∧ c.wOff = 32 ∧ c.wWgt = 8 ∧ c.wIn = 8 ∧ c.wOut = 32)
      ∧ 1 ≤ c.lanes ∧ c.outId < 2 ^ c.idW := by
  have h := c.ok
  simp only [Params.buildable, Params.widthsDecided, Params.cfgchk, decide_eq_true_eq] at h
  obtain ⟨h, hw, hl, hid⟩ := h
  refine ⟨?_, ?_, ?_, hw, hl, hid⟩ <;>
  · split at h <;> [skip; (split at h <;> [skip; split at h])] <;> simp_all <;> omega

theorem Config.classes_eq : c.classes = 2 * c.cpp := by
  have := c.checked.1
  unfold Config.cpp
  omega

theorem Config.feat_eq : c.feat = 8 * c.fpp := by
  have := c.checked.2.1
  unfold Config.fpp
  omega

theorem Config.batch_eq : c.batch = c.nt * c.tiling := by
  have := c.checked.2.2.1
  unfold Config.nt
  rw [Nat.div_mul_cancel (Nat.dvd_of_mod_eq_zero this.2.2)]

theorem Config.cpp_pos : 0 < c.cpp := by
  have := c.checked.1
  unfold Config.cpp
  omega

theorem Config.fpp_pos : 0 < c.fpp := by
  have := c.checked.2.1
  unfold Config.fpp
  omega

theorem Config.tiling_pos : 0 < c.tiling := c.checked.2.2.1.1

theorem Config.lanes_pos : 0 < c.lanes := c.checked.2.2.2.2.1

theorem Config.nt_pos : 0 < c.nt := by
  have h := c.batch_eq
  have := c.checked.2.2.1
  rcases Nat.eq_zero_or_pos c.nt with h0 | h0
  · rw [h0] at h
    omega
  · exact h0

theorem Config.ng_pos : 0 < c.ng := by
  have := c.lanes_pos
  have := c.checked.2.1
  unfold Config.ng
  apply Nat.div_pos <;> omega

/-- The groups reach every feature (R11, R13). -/
theorem Config.feat_le_ng_lanes : c.feat ≤ c.ng * c.lanes := by
  have h := Nat.lt_div_mul_add (a := c.feat + c.lanes - 1) c.lanes_pos
  have := c.lanes_pos
  unfold Config.ng
  omega

/-- Every group but the last starts below `FEAT` (R11, R13). -/
theorem Config.group_lt_feat {g : Nat} (h : g < c.ng) : g * c.lanes < c.feat := by
  unfold Config.ng at h
  have h' := Nat.div_mul_le_self (c.feat + c.lanes - 1) c.lanes
  have := c.lanes_pos
  have : (g + 1) * c.lanes ≤ (c.feat + c.lanes - 1) / c.lanes * c.lanes := Nat.mul_le_mul_right _ h
  rw [Nat.succ_mul] at this
  omega

end Sys2Proof
end

