-- ==== Sys2Proof/Laws/State.lean ====
section
/-! SUPPORT. What each named update of the state does to each field; true by unfolding. -/

namespace Sys2Proof.Machine

open Sys2Proof

variable (s : State)

@[simp] theorem State.writeOff_cfg (j : Nat) (vs : List Wide) : (s.writeOff j vs).cfg = s.cfg := rfl
@[simp] theorem State.writeOff_phase (j : Nat) (vs : List Wide) : (s.writeOff j vs).phase = s.phase := rfl
@[simp] theorem State.writeOff_t (j : Nat) (vs : List Wide) : (s.writeOff j vs).t = s.t := rfl
@[simp] theorem State.writeOff_cnt (j : Nat) (vs : List Wide) : (s.writeOff j vs).cnt = s.cnt := rfl
@[simp] theorem State.writeOff_i (j : Nat) (vs : List Wide) : (s.writeOff j vs).i = s.i := rfl
@[simp] theorem State.writeOff_j (j : Nat) (vs : List Wide) : (s.writeOff j vs).j = s.j := rfl
@[simp] theorem State.writeOff_g (j : Nat) (vs : List Wide) : (s.writeOff j vs).g = s.g := rfl
@[simp] theorem State.writeOff_cs (j : Nat) (vs : List Wide) : (s.writeOff j vs).cs = s.cs := rfl
@[simp] theorem State.writeOff_icnt (j : Nat) (vs : List Wide) : (s.writeOff j vs).icnt = s.icnt := rfl
@[simp] theorem State.writeOff_ocnt (j : Nat) (vs : List Wide) : (s.writeOff j vs).ocnt = s.ocnt := rfl
@[simp] theorem State.writeOff_acc (j : Nat) (vs : List Wide) : (s.writeOff j vs).acc = s.acc := rfl
@[simp] theorem State.writeOff_mem (j : Nat) (vs : List Wide) : (s.writeOff j vs).mem = { s.mem with off := s.mem.off.writeRun (bufIndex s.cfg .off 0 j) vs } := rfl
@[simp] theorem State.writeOff_inCh (j : Nat) (vs : List Wide) : (s.writeOff j vs).inCh = s.inCh := rfl
@[simp] theorem State.writeOff_outCh (j : Nat) (vs : List Wide) : (s.writeOff j vs).outCh = s.outCh := rfl
@[simp] theorem State.writeOff_startReq (j : Nat) (vs : List Wide) : (s.writeOff j vs).startReq = s.startReq := rfl
@[simp] theorem State.writeOff_ackReq (j : Nat) (vs : List Wide) : (s.writeOff j vs).ackReq = s.ackReq := rfl
@[simp] theorem State.writeOff_sched (j : Nat) (vs : List Wide) : (s.writeOff j vs).sched = s.sched := rfl
@[simp] theorem State.writeOff_received (j : Nat) (vs : List Wide) : (s.writeOff j vs).received = s.received := rfl

@[simp] theorem State.writeWgt_cfg (j k : Nat) (vs : List Narrow) : (s.writeWgt j k vs).cfg = s.cfg := rfl
@[simp] theorem State.writeWgt_phase (j k : Nat) (vs : List Narrow) : (s.writeWgt j k vs).phase = s.phase := rfl
@[simp] theorem State.writeWgt_t (j k : Nat) (vs : List Narrow) : (s.writeWgt j k vs).t = s.t := rfl
@[simp] theorem State.writeWgt_cnt (j k : Nat) (vs : List Narrow) : (s.writeWgt j k vs).cnt = s.cnt := rfl
@[simp] theorem State.writeWgt_i (j k : Nat) (vs : List Narrow) : (s.writeWgt j k vs).i = s.i := rfl
@[simp] theorem State.writeWgt_j (j k : Nat) (vs : List Narrow) : (s.writeWgt j k vs).j = s.j := rfl
@[simp] theorem State.writeWgt_g (j k : Nat) (vs : List Narrow) : (s.writeWgt j k vs).g = s.g := rfl
@[simp] theorem State.writeWgt_cs (j k : Nat) (vs : List Narrow) : (s.writeWgt j k vs).cs = s.cs := rfl
@[simp] theorem State.writeWgt_icnt (j k : Nat) (vs : List Narrow) : (s.writeWgt j k vs).icnt = s.icnt := rfl
@[simp] theorem State.writeWgt_ocnt (j k : Nat) (vs : List Narrow) : (s.writeWgt j k vs).ocnt = s.ocnt := rfl
@[simp] theorem State.writeWgt_acc (j k : Nat) (vs : List Narrow) : (s.writeWgt j k vs).acc = s.acc := rfl
@[simp] theorem State.writeWgt_mem (j k : Nat) (vs : List Narrow) : (s.writeWgt j k vs).mem = { s.mem with wgt := s.mem.wgt.writeRun (bufIndex s.cfg .wgt j k) vs } := rfl
@[simp] theorem State.writeWgt_inCh (j k : Nat) (vs : List Narrow) : (s.writeWgt j k vs).inCh = s.inCh := rfl
@[simp] theorem State.writeWgt_outCh (j k : Nat) (vs : List Narrow) : (s.writeWgt j k vs).outCh = s.outCh := rfl
@[simp] theorem State.writeWgt_startReq (j k : Nat) (vs : List Narrow) : (s.writeWgt j k vs).startReq = s.startReq := rfl
@[simp] theorem State.writeWgt_ackReq (j k : Nat) (vs : List Narrow) : (s.writeWgt j k vs).ackReq = s.ackReq := rfl
@[simp] theorem State.writeWgt_sched (j k : Nat) (vs : List Narrow) : (s.writeWgt j k vs).sched = s.sched := rfl
@[simp] theorem State.writeWgt_received (j k : Nat) (vs : List Narrow) : (s.writeWgt j k vs).received = s.received := rfl

@[simp] theorem State.writeInp_cfg (i k : Nat) (vs : List Narrow) : (s.writeInp i k vs).cfg = s.cfg := rfl
@[simp] theorem State.writeInp_phase (i k : Nat) (vs : List Narrow) : (s.writeInp i k vs).phase = s.phase := rfl
@[simp] theorem State.writeInp_t (i k : Nat) (vs : List Narrow) : (s.writeInp i k vs).t = s.t := rfl
@[simp] theorem State.writeInp_cnt (i k : Nat) (vs : List Narrow) : (s.writeInp i k vs).cnt = s.cnt := rfl
@[simp] theorem State.writeInp_i (i k : Nat) (vs : List Narrow) : (s.writeInp i k vs).i = s.i := rfl
@[simp] theorem State.writeInp_j (i k : Nat) (vs : List Narrow) : (s.writeInp i k vs).j = s.j := rfl
@[simp] theorem State.writeInp_g (i k : Nat) (vs : List Narrow) : (s.writeInp i k vs).g = s.g := rfl
@[simp] theorem State.writeInp_cs (i k : Nat) (vs : List Narrow) : (s.writeInp i k vs).cs = s.cs := rfl
@[simp] theorem State.writeInp_icnt (i k : Nat) (vs : List Narrow) : (s.writeInp i k vs).icnt = s.icnt := rfl
@[simp] theorem State.writeInp_ocnt (i k : Nat) (vs : List Narrow) : (s.writeInp i k vs).ocnt = s.ocnt := rfl
@[simp] theorem State.writeInp_acc (i k : Nat) (vs : List Narrow) : (s.writeInp i k vs).acc = s.acc := rfl
@[simp] theorem State.writeInp_mem (i k : Nat) (vs : List Narrow) : (s.writeInp i k vs).mem = { s.mem with inp := s.mem.inp.writeRun (bufIndex s.cfg .inp i k) vs } := rfl
@[simp] theorem State.writeInp_inCh (i k : Nat) (vs : List Narrow) : (s.writeInp i k vs).inCh = s.inCh := rfl
@[simp] theorem State.writeInp_outCh (i k : Nat) (vs : List Narrow) : (s.writeInp i k vs).outCh = s.outCh := rfl
@[simp] theorem State.writeInp_startReq (i k : Nat) (vs : List Narrow) : (s.writeInp i k vs).startReq = s.startReq := rfl
@[simp] theorem State.writeInp_ackReq (i k : Nat) (vs : List Narrow) : (s.writeInp i k vs).ackReq = s.ackReq := rfl
@[simp] theorem State.writeInp_sched (i k : Nat) (vs : List Narrow) : (s.writeInp i k vs).sched = s.sched := rfl
@[simp] theorem State.writeInp_received (i k : Nat) (vs : List Narrow) : (s.writeInp i k vs).received = s.received := rfl

@[simp] theorem State.writeOut_cfg (i j : Nat) (v : Wide) : (s.writeOut i j v).cfg = s.cfg := rfl
@[simp] theorem State.writeOut_phase (i j : Nat) (v : Wide) : (s.writeOut i j v).phase = s.phase := rfl
@[simp] theorem State.writeOut_t (i j : Nat) (v : Wide) : (s.writeOut i j v).t = s.t := rfl
@[simp] theorem State.writeOut_cnt (i j : Nat) (v : Wide) : (s.writeOut i j v).cnt = s.cnt := rfl
@[simp] theorem State.writeOut_i (i j : Nat) (v : Wide) : (s.writeOut i j v).i = s.i := rfl
@[simp] theorem State.writeOut_j (i j : Nat) (v : Wide) : (s.writeOut i j v).j = s.j := rfl
@[simp] theorem State.writeOut_g (i j : Nat) (v : Wide) : (s.writeOut i j v).g = s.g := rfl
@[simp] theorem State.writeOut_cs (i j : Nat) (v : Wide) : (s.writeOut i j v).cs = s.cs := rfl
@[simp] theorem State.writeOut_icnt (i j : Nat) (v : Wide) : (s.writeOut i j v).icnt = s.icnt := rfl
@[simp] theorem State.writeOut_ocnt (i j : Nat) (v : Wide) : (s.writeOut i j v).ocnt = s.ocnt := rfl
@[simp] theorem State.writeOut_acc (i j : Nat) (v : Wide) : (s.writeOut i j v).acc = s.acc := rfl
@[simp] theorem State.writeOut_mem (i j : Nat) (v : Wide) : (s.writeOut i j v).mem = { s.mem with out := s.mem.out.write (bufIndex s.cfg .out i j) v } := rfl
@[simp] theorem State.writeOut_inCh (i j : Nat) (v : Wide) : (s.writeOut i j v).inCh = s.inCh := rfl
@[simp] theorem State.writeOut_outCh (i j : Nat) (v : Wide) : (s.writeOut i j v).outCh = s.outCh := rfl
@[simp] theorem State.writeOut_startReq (i j : Nat) (v : Wide) : (s.writeOut i j v).startReq = s.startReq := rfl
@[simp] theorem State.writeOut_ackReq (i j : Nat) (v : Wide) : (s.writeOut i j v).ackReq = s.ackReq := rfl
@[simp] theorem State.writeOut_sched (i j : Nat) (v : Wide) : (s.writeOut i j v).sched = s.sched := rfl
@[simp] theorem State.writeOut_received (i j : Nat) (v : Wide) : (s.writeOut i j v).received = s.received := rfl

@[simp] theorem State.pushed_cfg (p : Packet) : (s.pushed p).cfg = s.cfg := rfl
@[simp] theorem State.pushed_phase (p : Packet) : (s.pushed p).phase = s.phase := rfl
@[simp] theorem State.pushed_t (p : Packet) : (s.pushed p).t = s.t := rfl
@[simp] theorem State.pushed_cnt (p : Packet) : (s.pushed p).cnt = s.cnt := rfl
@[simp] theorem State.pushed_i (p : Packet) : (s.pushed p).i = s.i := rfl
@[simp] theorem State.pushed_j (p : Packet) : (s.pushed p).j = s.j := rfl
@[simp] theorem State.pushed_g (p : Packet) : (s.pushed p).g = s.g := rfl
@[simp] theorem State.pushed_cs (p : Packet) : (s.pushed p).cs = s.cs := rfl
@[simp] theorem State.pushed_icnt (p : Packet) : (s.pushed p).icnt = s.icnt := rfl
@[simp] theorem State.pushed_ocnt (p : Packet) : (s.pushed p).ocnt = s.ocnt + 1 := rfl
@[simp] theorem State.pushed_acc (p : Packet) : (s.pushed p).acc = s.acc := rfl
@[simp] theorem State.pushed_mem (p : Packet) : (s.pushed p).mem = s.mem := rfl
@[simp] theorem State.pushed_inCh (p : Packet) : (s.pushed p).inCh = s.inCh := rfl
@[simp] theorem State.pushed_outCh (p : Packet) : (s.pushed p).outCh = s.outCh ++ [p] := rfl
@[simp] theorem State.pushed_startReq (p : Packet) : (s.pushed p).startReq = s.startReq := rfl
@[simp] theorem State.pushed_ackReq (p : Packet) : (s.pushed p).ackReq = s.ackReq := rfl
@[simp] theorem State.pushed_sched (p : Packet) : (s.pushed p).sched = s.sched := rfl
@[simp] theorem State.pushed_received (p : Packet) : (s.pushed p).received = s.received := rfl

@[simp] theorem State.enter_cfg (ph : Phase) : (s.enter ph).cfg = s.cfg := rfl
@[simp] theorem State.enter_phase (ph : Phase) : (s.enter ph).phase = ph := rfl
@[simp] theorem State.enter_t (ph : Phase) : (s.enter ph).t = s.t := rfl
@[simp] theorem State.enter_cnt (ph : Phase) : (s.enter ph).cnt = 0 := rfl
@[simp] theorem State.enter_i (ph : Phase) : (s.enter ph).i = s.i := rfl
@[simp] theorem State.enter_j (ph : Phase) : (s.enter ph).j = s.j := rfl
@[simp] theorem State.enter_g (ph : Phase) : (s.enter ph).g = s.g := rfl
@[simp] theorem State.enter_cs (ph : Phase) : (s.enter ph).cs = s.cs := rfl
@[simp] theorem State.enter_icnt (ph : Phase) : (s.enter ph).icnt = s.icnt := rfl
@[simp] theorem State.enter_ocnt (ph : Phase) : (s.enter ph).ocnt = s.ocnt := rfl
@[simp] theorem State.enter_acc (ph : Phase) : (s.enter ph).acc = s.acc := rfl
@[simp] theorem State.enter_mem (ph : Phase) : (s.enter ph).mem = s.mem := rfl
@[simp] theorem State.enter_inCh (ph : Phase) : (s.enter ph).inCh = s.inCh := rfl
@[simp] theorem State.enter_outCh (ph : Phase) : (s.enter ph).outCh = s.outCh := rfl
@[simp] theorem State.enter_startReq (ph : Phase) : (s.enter ph).startReq = s.startReq := rfl
@[simp] theorem State.enter_ackReq (ph : Phase) : (s.enter ph).ackReq = s.ackReq := rfl
@[simp] theorem State.enter_sched (ph : Phase) : (s.enter ph).sched = s.sched := rfl
@[simp] theorem State.enter_received (ph : Phase) : (s.enter ph).received = s.received := rfl

@[simp] theorem State.enterCompute_cfg : (s.enterCompute).cfg = s.cfg := rfl
@[simp] theorem State.enterCompute_phase : (s.enterCompute).phase = .computeTile := rfl
@[simp] theorem State.enterCompute_t : (s.enterCompute).t = s.t := rfl
@[simp] theorem State.enterCompute_cnt : (s.enterCompute).cnt = s.cnt := rfl
@[simp] theorem State.enterCompute_i : (s.enterCompute).i = 0 := rfl
@[simp] theorem State.enterCompute_j : (s.enterCompute).j = 0 := rfl
@[simp] theorem State.enterCompute_g : (s.enterCompute).g = 0 := rfl
@[simp] theorem State.enterCompute_cs : (s.enterCompute).cs = .init := rfl
@[simp] theorem State.enterCompute_icnt : (s.enterCompute).icnt = s.icnt := rfl
@[simp] theorem State.enterCompute_ocnt : (s.enterCompute).ocnt = s.ocnt := rfl
@[simp] theorem State.enterCompute_acc : (s.enterCompute).acc = s.acc := rfl
@[simp] theorem State.enterCompute_mem : (s.enterCompute).mem = s.mem := rfl
@[simp] theorem State.enterCompute_inCh : (s.enterCompute).inCh = s.inCh := rfl
@[simp] theorem State.enterCompute_outCh : (s.enterCompute).outCh = s.outCh := rfl
@[simp] theorem State.enterCompute_startReq : (s.enterCompute).startReq = s.startReq := rfl
@[simp] theorem State.enterCompute_ackReq : (s.enterCompute).ackReq = s.ackReq := rfl
@[simp] theorem State.enterCompute_sched : (s.enterCompute).sched = s.sched := rfl
@[simp] theorem State.enterCompute_received : (s.enterCompute).received = s.received := rfl

end Sys2Proof.Machine
end

