-- ==== Sys2Proof/Laws/Bounds.lean ====
section
/-! SUPPORT. Every element an operation reaches exists while the counters are in range (R65), every memory operation keeps the
canonical form of the buffers (R60), and the memory after reset has it. -/

namespace Sys2Proof.Machine

open Sys2Proof

/-! ### The elements of one packet lie within one row (R65, R78) -/

theorem bufHolds_off {c : Config} {n : Nat} (h : n < c.offPkts) : bufHolds c .off 0 (2 * n) 2 = true := by
  have hc := c.classes_eq
  refine decide_eq_true ⟨Nat.one_pos, ?_⟩
  simp only [bufCols]
  unfold Config.offPkts at h
  omega

/-- A count below rows times packets per row stands for a row that exists and a packet within it. -/
theorem rowOf_lt {n rows perRow : Nat} (hpos : 0 < perRow) (h : n < rows * perRow) :
    rowOf n perRow < rows ∧ pktOf n perRow + 1 ≤ perRow :=
  ⟨(Nat.div_lt_iff_lt_mul hpos).2 h, Nat.mod_lt _ hpos⟩

theorem bufHolds_wgt {c : Config} {n : Nat} (h : n < c.wgtPkts) :
    bufHolds c .wgt (rowOf n c.fpp) (8 * pktOf n c.fpp) 8 = true := by
  have hf := c.feat_eq
  have hr := rowOf_lt c.fpp_pos h
  exact decide_eq_true ⟨hr.1, by simp only [bufCols]; omega⟩

theorem bufHolds_inp {c : Config} {n : Nat} (h : n < c.tileInPkts) :
    bufHolds c .inp (rowOf n c.fpp) (8 * pktOf n c.fpp) 8 = true := by
  have hf := c.feat_eq
  have hr := rowOf_lt c.fpp_pos h
  exact decide_eq_true ⟨hr.1, by simp only [bufCols]; omega⟩

theorem bufHolds_out {c : Config} {n : Nat} (h : n < c.tileOutPkts) :
    bufHolds c .out (rowOf n c.cpp) (2 * pktOf n c.cpp) 2 = true := by
  have hc := c.classes_eq
  have hr := rowOf_lt c.cpp_pos h
  exact decide_eq_true ⟨hr.1, by simp only [bufCols]; omega⟩

/-- A whole row that exists. -/
theorem bufHolds_row {c : Config} {b : BufId} {r : Nat} (h : r < bufRows c b) :
    bufHolds c b r 0 (bufCols c b) = true :=
  decide_eq_true ⟨h, by omega⟩

/-- One element of a row that exists. -/
theorem bufHolds_one {c : Config} {b : BufId} {r k : Nat} (hr : r < bufRows c b) (hk : k < bufCols c b) :
    bufHolds c b r k 1 = true :=
  decide_eq_true ⟨hr, hk⟩

/-! ### The canonical form is kept -/

theorem unpack_length (w r : Nat) (d : Payload) : (unpack w r d).length = r := by
  simp [unpack]

theorem State.writeOff_wf {s : State} {j : Nat} {vs : List Wide} (h : s.mem.wf s.cfg)
    (hb : bufHolds s.cfg .off 0 j vs.length = true) : (s.writeOff j vs).mem.wf s.cfg :=
  ⟨Buf.wf_writeRun (bufIndex_lt hb) h.1, h.2⟩

theorem State.writeWgt_wf {s : State} {j k : Nat} {vs : List Narrow} (h : s.mem.wf s.cfg)
    (hb : bufHolds s.cfg .wgt j k vs.length = true) : (s.writeWgt j k vs).mem.wf s.cfg :=
  ⟨h.1, Buf.wf_writeRun (bufIndex_lt hb) h.2.1, h.2.2⟩

theorem State.writeInp_wf {s : State} {i k : Nat} {vs : List Narrow} (h : s.mem.wf s.cfg)
    (hb : bufHolds s.cfg .inp i k vs.length = true) : (s.writeInp i k vs).mem.wf s.cfg :=
  ⟨h.1, h.2.1, Buf.wf_writeRun (bufIndex_lt hb) h.2.2.1, h.2.2.2⟩

theorem State.writeOut_wf {s : State} {i j : Nat} {v : Wide} (h : s.mem.wf s.cfg)
    (hb : bufHolds s.cfg .out i j 1 = true) : (s.writeOut i j v).mem.wf s.cfg :=
  ⟨h.1, h.2.1, h.2.2.1, Buf.wf_write (bufIndex_lt hb) h.2.2.2⟩

/-- The memory after reset is in canonical form, for every configuration. -/
theorem State.resetWith_wf (c : Config) : (State.resetWith c).mem.wf c :=
  ⟨Buf.wf_nil _, Buf.wf_nil _, Buf.wf_nil _, Buf.wf_nil _⟩

end Sys2Proof.Machine
end

