-- ==== Sys2Proof/Laws/Ops.lean ====
section
/-! SUPPORT. For each shared operation, once, everything it can do; citing these, no later proof unfolds the operation. -/

namespace Sys2Proof.Machine

open Sys2Proof

variable {s t : State}

/-! ### Guards -/

@[simp] theorem State.within_of_holds {b : BufId} {r k n : Nat} {res : Result} (h : bufHolds s.cfg b r k n = true) :
    s.within b r k n res = res := by
  simp [State.within, h]

theorem State.within_of_not_holds {b : BufId} {r k n : Nat} {res : Result} (h : bufHolds s.cfg b r k n = false) :
    s.within b r k n res = .fault (.noElement b r k) := by
  simp [State.within, h]

/-- An access that goes on is to elements that exist. -/
theorem State.within_next {b : BufId} {r k n : Nat} {res : Result} (h : s.within b r k n res = .next t) :
    bufHolds s.cfg b r k n = true ∧ res = .next t := by
  unfold State.within at h
  split at h
  · exact ⟨‹_›, h⟩
  · cases h

/-! ### Channels -/

@[simp] theorem State.popping_nil {k : Packet → State → Result} (h : s.inCh = []) : s.popping k = .next s := by
  simp [State.popping, h]

@[simp] theorem State.popping_cons {k : Packet → State → Result} {p : Packet} {rest : List Packet}
    (h : s.inCh = p :: rest) : s.popping k = k p { s with inCh := rest, icnt := s.icnt + 1 } := by
  simp [State.popping, h]

/-- An operation that pops waits on an empty channel, or goes on with the head packet (R121). -/
theorem State.popping_next {k : Packet → State → Result} (h : s.popping k = .next t) :
    (s.inCh = [] ∧ t = s)
      ∨ ∃ p rest, s.inCh = p :: rest ∧ k p { s with inCh := rest, icnt := s.icnt + 1 } = .next t := by
  cases hc : s.inCh with
  | nil =>
    rw [State.popping_nil hc] at h
    cases h
    exact .inl ⟨rfl, rfl⟩
  | cons p rest =>
    rw [State.popping_cons hc] at h
    exact .inr ⟨p, rest, rfl, h⟩

/-- The room of the output channel (R72). -/
theorem State.hasRoom_iff : s.hasRoom = true ↔ ∀ n ∈ s.cfg.outCap, s.outCh.length < n := by
  unfold State.hasRoom
  cases s.cfg.outCap <;> simp

/-! ### The selector -/

/-- The operation the selector picks, by the phase and the sub-step (R104, R106). -/
theorem State.fetch_eq :
    s.fetch = match s.phase with
      | .idle => .ok .start
      | .loadOffsets => .ok .ldoff
      | .loadWeights => .ok .ldwgt
      | .loadTile => .ok .ldin
      | .computeTile =>
        (match s.cs with
        | .init => .ok .accinit
        | .macs => .ok .mac
        | .wb => .ok .accwb
        | .reserved => .error .reservedSubStep)
      | .storeTile => .ok .stout
      | .done => .ok .ack
      | .reserved => .error .reservedPhase := by
  unfold State.fetch State.sel
  cases s.phase <;> cases s.cs <;> decide

/-! ### Turns -/

/-- What taking a turn can be (R179, log 6). -/
theorem State.takeTurn_cases (s : State) :
    (∃ m rest, s.sched = .host m :: rest ∧ s.takeTurn = (some m, { s with sched := rest }))
      ∨ (∃ rest, s.sched = .kernel :: rest ∧ s.takeTurn = (none, { s with sched := rest }))
      ∨ (s.sched = [] ∧ s.takeTurn = (none, s)) := by
  unfold State.takeTurn
  rcases h : s.sched with _ | ⟨_ | m, rest⟩
  · exact .inr (.inr ⟨rfl, rfl⟩)
  · exact .inr (.inl ⟨rest, rfl, rfl⟩)
  · exact .inl ⟨m, rest, rfl, rfl⟩

/-- On the kernel's turn only the schedule changes before the operation runs. -/
theorem State.takeTurn_none {s' : State} (h : s.takeTurn = (none, s')) : s' = { s with sched := s.sched.tail } := by
  rcases s.takeTurn_cases with ⟨m, rest, hs, hm⟩ | ⟨rest, hs, hm⟩ | ⟨hs, hm⟩
  · rw [hm] at h
    cases h
  · rw [hm] at h
    cases h
    rw [hs]
    rfl
  · rw [hm] at h
    cases h
    rw [hs]
    cases s
    simp_all

/-- On the environment's turn the move is the first of the schedule. -/
theorem State.takeTurn_some {s' : State} {m : HostMove} (h : s.takeTurn = (some m, s')) :
    s.sched = .host m :: s'.sched ∧ s' = { s with sched := s'.sched } := by
  rcases s.takeTurn_cases with ⟨m', rest, hs, hm⟩ | ⟨rest, hs, hm⟩ | ⟨hs, hm⟩
  · rw [hm] at h
    cases h
    exact ⟨hs, rfl⟩
  · rw [hm] at h
    cases h
  · rw [hm] at h
    cases h

@[simp] theorem Packet.carried_data (c : Config) (p : Packet) : (p.carried c).data = p.data := rfl

@[simp] theorem Packet.carried_mask (c : Config) (p : Packet) : (p.carried c).mask = p.mask := rfl

@[simp] theorem Packet.carried_last (c : Config) (p : Packet) : (p.carried c).last = p.last := rfl

/-- The id of a packet in a channel has `ID_W` bits (R90). -/
theorem Packet.carried_id_lt (c : Config) (p : Packet) : (p.carried c).id < 2 ^ c.idW :=
  Nat.mod_lt _ (Nat.two_pow_pos _)

/-- A packet whose id has `ID_W` bits is carried as it is (R90). -/
theorem Packet.carried_eq {c : Config} {p : Packet} (h : p.id < 2 ^ c.idW) : p.carried c = p := by
  simp [Packet.carried, Nat.mod_eq_of_lt h]

/-- What a move of the environment does, the whole state (R179, R193). -/
theorem State.hostMove_cases (s : State) (m : HostMove) :
    s.hostMove m = s
      ∨ (∃ p, m = .send p ∧ s.hostMove m = { s with inCh := s.inCh ++ [p.carried s.cfg] })
      ∨ (∃ p rest, m = .recv ∧ s.outCh = p :: rest
          ∧ s.hostMove m = { s with outCh := rest, received := s.received ++ [p] })
      ∨ (m = .start ∧ s.phase = .idle ∧ s.hostMove m = { s with startReq := true })
      ∨ (m = .ack ∧ s.phase = .done ∧ s.hostMove m = { s with ackReq := true }) := by
  cases m with
  | send p => exact .inr (.inl ⟨p, rfl, rfl⟩)
  | recv =>
    cases h : s.outCh with
    | nil => exact .inl (by simp [State.hostMove, h])
    | cons p rest => exact .inr (.inr (.inl ⟨p, rest, rfl, rfl, by simp [State.hostMove, h]⟩))
  | start =>
    by_cases h : s.phase = .idle
    · exact .inr (.inr (.inr (.inl ⟨rfl, h, by simp [State.hostMove, h]⟩)))
    · exact .inl (by simp [State.hostMove, h])
  | ack =>
    by_cases h : s.phase = .done
    · exact .inr (.inr (.inr (.inr ⟨rfl, h, by simp [State.hostMove, h]⟩)))
    · exact .inl (by simp [State.hostMove, h])

end Sys2Proof.Machine
end

