-- ==== Sys2Proof/Laws/Exec.lean ====
section
/-! SUPPORT. What each operation can do when it answers a next state: it was not enabled and nothing changed, or its effect
(one inversion lemma per operation), and what a step can be. Invariants are proved from these, not by unfolding. -/

namespace Sys2Proof.Machine

open Sys2Proof

variable {s t : State}

theorem execStart_next (h : execStart s = .next t) :
    t = s ∨ (s.phase = .idle ∧ s.startReq = true ∧
      t = { s with
        phase := .loadOffsets, t := 0, cnt := 0, i := 0, j := 0, g := 0, cs := .init, icnt := 0, ocnt := 0
        startReq := false }) := by
  unfold execStart at h
  split at h
  · rename_i hc
    cases h
    exact .inr ⟨hc.1, hc.2, rfl⟩
  · cases h
    exact .inl rfl

theorem execAck_next (h : execAck s = .next t) :
    t = s ∨ (s.phase = .done ∧ s.ackReq = true ∧ t = { s with phase := .idle, ackReq := false }) := by
  unfold execAck at h
  split at h
  · rename_i hc
    cases h
    exact .inr ⟨hc.1, hc.2, rfl⟩
  · cases h
    exact .inl rfl

theorem execLdoff_next (h : execLdoff s = .next t) :
    t = s ∨ ∃ p rest s', s.phase = .loadOffsets ∧ s.inCh = p :: rest ∧ bufHolds s.cfg .off 0 (2 * s.cnt) 2 = true
      ∧ s' = { s with inCh := rest, icnt := s.icnt + 1 }.writeOff (2 * s.cnt) (unpack 32 2 p.data)
      ∧ t = s'.countPacket s.cfg.offPkts (s'.enter .loadWeights) := by
  unfold execLdoff at h
  split at h
  · rcases State.popping_next h with ⟨_, rfl⟩ | ⟨p, rest, hc, hk⟩
    · exact .inl rfl
    · obtain ⟨hb, hk⟩ := State.within_next hk
      cases hk
      exact .inr ⟨p, rest, _, ‹_›, hc, hb, rfl, rfl⟩
  · cases h
    exact .inl rfl

theorem execLdwgt_next (h : execLdwgt s = .next t) :
    t = s ∨ ∃ p rest s', s.phase = .loadWeights ∧ s.inCh = p :: rest
      ∧ bufHolds s.cfg .wgt (rowOf s.cnt s.cfg.fpp) (8 * pktOf s.cnt s.cfg.fpp) 8 = true
      ∧ s' = { s with inCh := rest, icnt := s.icnt + 1 }.writeWgt (rowOf s.cnt s.cfg.fpp) (8 * pktOf s.cnt s.cfg.fpp)
          (unpack 8 8 p.data)
      ∧ t = s'.countPacket s.cfg.wgtPkts (s'.enter .loadTile) := by
  unfold execLdwgt at h
  split at h
  · rcases State.popping_next h with ⟨_, rfl⟩ | ⟨p, rest, hc, hk⟩
    · exact .inl rfl
    · obtain ⟨hb, hk⟩ := State.within_next hk
      cases hk
      exact .inr ⟨p, rest, _, ‹_›, hc, hb, rfl, rfl⟩
  · cases h
    exact .inl rfl

theorem execLdin_next (h : execLdin s = .next t) :
    t = s ∨ ∃ p rest s', s.phase = .loadTile ∧ s.inCh = p :: rest
      ∧ bufHolds s.cfg .inp (rowOf s.cnt s.cfg.fpp) (8 * pktOf s.cnt s.cfg.fpp) 8 = true
      ∧ s' = { s with inCh := rest, icnt := s.icnt + 1 }.writeInp (rowOf s.cnt s.cfg.fpp) (8 * pktOf s.cnt s.cfg.fpp)
          (unpack 8 8 p.data)
      ∧ t = s'.countPacket s.cfg.tileInPkts s'.enterCompute := by
  unfold execLdin at h
  split at h
  · rcases State.popping_next h with ⟨_, rfl⟩ | ⟨p, rest, hc, hk⟩
    · exact .inl rfl
    · obtain ⟨hb, hk⟩ := State.within_next hk
      cases hk
      exact .inr ⟨p, rest, _, ‹_›, hc, hb, rfl, rfl⟩
  · cases h
    exact .inl rfl

theorem execAccinit_next (h : execAccinit s = .next t) :
    t = s ∨ (s.phase = .computeTile ∧ s.cs = .init ∧ bufHolds s.cfg .off 0 s.j 1 = true
      ∧ t = { s with acc := accLoad (s.offAt s.j), g := 0, cs := .macs }) := by
  unfold execAccinit at h
  split at h
  · rename_i hc
    obtain ⟨hb, hk⟩ := State.within_next h
    cases hk
    exact .inr ⟨hc.1, hc.2, hb, rfl⟩
  · cases h
    exact .inl rfl

theorem execMac_next (h : execMac s = .next t) :
    t = s ∨ ∃ s', s.phase = .computeTile ∧ s.cs = .macs ∧ bufHolds s.cfg .inp s.i 0 s.cfg.feat = true
      ∧ bufHolds s.cfg .wgt s.j 0 s.cfg.feat = true
      ∧ s' = { s with acc := accAdd s.acc (gsum s.cfg (s.inpAt s.i) (s.wgtAt s.j) s.g) }
      ∧ t = if s.g + 1 < s.cfg.ng then { s' with g := s.g + 1 } else { s' with cs := .wb } := by
  unfold execMac at h
  split at h
  · rename_i hc
    obtain ⟨hb, hk⟩ := State.within_next h
    obtain ⟨hb', hk⟩ := State.within_next hk
    cases hk
    exact .inr ⟨_, hc.1, hc.2, hb, hb', rfl, rfl⟩
  · cases h
    exact .inl rfl

theorem execAccwb_next (h : execAccwb s = .next t) :
    t = s ∨ ∃ s', s.phase = .computeTile ∧ s.cs = .wb ∧ bufHolds s.cfg .out s.i s.j 1 = true
      ∧ s' = { s.writeOut s.i s.j s.acc with cs := .init }
      ∧ t = if s.j + 1 < s.cfg.classes then { s' with j := s.j + 1, g := 0 }
            else if s.i + 1 < s.cfg.tiling then { s' with i := s.i + 1, j := 0, g := 0 }
            else s'.enter .storeTile := by
  unfold execAccwb at h
  split at h
  · rename_i hc
    obtain ⟨hb, hk⟩ := State.within_next h
    cases hk
    exact .inr ⟨_, hc.1, hc.2, hb, rfl, rfl⟩
  · cases h
    exact .inl rfl

theorem execStout_next (h : execStout s = .next t) :
    t = s ∨ ∃ s', s.phase = .storeTile ∧ s.hasRoom = true
      ∧ bufHolds s.cfg .out (rowOf s.cnt s.cfg.cpp) (2 * pktOf s.cnt s.cfg.cpp) 2 = true
      ∧ s' = s.pushed (s.outPacket (s.outAt (rowOf s.cnt s.cfg.cpp) (2 * pktOf s.cnt s.cfg.cpp))
          (s.outAt (rowOf s.cnt s.cfg.cpp) (2 * pktOf s.cnt s.cfg.cpp + 1)))
      ∧ t = s'.countPacket s.cfg.tileOutPkts
          (if s.t + 1 < s.cfg.nt then { s'.enter .loadTile with t := s.t + 1 } else { s' with phase := .done }) := by
  unfold execStout at h
  split at h
  · rename_i hc
    obtain ⟨hb, hk⟩ := State.within_next h
    cases hk
    exact .inr ⟨_, hc.1, hc.2, hb, rfl, rfl⟩
  · cases h
    exact .inl rfl

/-- What a step can be: a move of the environment, the selected operation, or nothing under a reserved selector. -/
theorem step_next (h : step s = .next t) :
    (∃ m rest, s.sched = .host m :: rest ∧ t = { s with sched := rest }.hostMove m)
      ∨ ∃ s', s' = { s with sched := s.sched.tail }
        ∧ ((∃ i, s'.fetch = .ok i ∧ exec i s' = .next t) ∨ ((∃ e, s'.fetch = .error e) ∧ t = s')) := by
  unfold step at h
  split at h
  · rename_i m s' heq
    obtain ⟨h1, h2⟩ := State.takeTurn_some heq
    cases h
    exact .inl ⟨m, s'.sched, h1, by rw [← h2]⟩
  · rename_i s' heq
    refine .inr ⟨s', State.takeTurn_none heq, ?_⟩
    split at h
    · exact .inl ⟨_, ‹_›, h⟩
    · cases h
      exact .inr ⟨⟨_, ‹_›⟩, rfl⟩

/-! ### Runs of the machine behind the host's interface -/

theorem coreRun_succ (M : Host.Core) {k : Nat} {a b : M.State} (h : M.step a = .next b) :
    M.run (k + 1) a = M.run k b := by
  simp only [Host.Core.run, h]

theorem coreRun_succ_next (M : Host.Core) {k : Nat} {a c : M.State} (h : M.run (k + 1) a = .next c) :
    ∃ b, M.step a = .next b ∧ M.run k b = .next c := by
  simp only [Host.Core.run] at h
  split at h
  · exact ⟨_, ‹_›, h⟩
  · cases h
  · cases h

theorem coreRun_add (M : Host.Core) {m n : Nat} {a b : M.State} (h : M.run m a = .next b) :
    M.run (m + n) a = M.run n b := by
  induction m generalizing a with
  | zero =>
    cases h
    rw [Nat.zero_add]
  | succ m ih =>
    obtain ⟨c, hc, h⟩ := coreRun_succ_next M h
    rw [Nat.succ_add, coreRun_succ M hc, ih h]

theorem run_zero (s : State) : Host.Core.run core 0 s = .next s := rfl

/-- A run goes on from the state its first step answers. -/
theorem run_succ {k : Nat} (h : step s = .next t) : Host.Core.run core (k + 1) s = Host.Core.run core k t :=
  coreRun_succ core h

/-- A run that answers a state took a first step that did. -/
theorem run_succ_next {k : Nat} (h : Host.Core.run core (k + 1) s = .next t) :
    ∃ u, step s = .next u ∧ Host.Core.run core k u = .next t :=
  coreRun_succ_next core h

/-- Runs follow one another. -/
theorem run_add {m n : Nat} (h : Host.Core.run core m s = .next t) :
    Host.Core.run core (m + n) s = Host.Core.run core n t :=
  coreRun_add core h

end Sys2Proof.Machine
end

