-- ==== Sys2Proof/Laws/PerInstr.lean ====
section
/-! SUPPORT. One lemma per operation: its row of the selector table decodes to it, and no other selector does (R104). -/

namespace Sys2Proof.Laws.Selector

open Sys2Proof

/-- The operation's own selector decodes to it, a selector decodes to it exactly when it falls under the operation's row, and
its selector is not reserved (R104, R106). -/
def Statement (i : Instr) : Prop :=
  decode (encode i) = .ok i ∧ (∀ w : Sel, (decode w).toOption = some i ↔ w &&& i.row.mask = i.row.bits)
    ∧ selWellFormed (encode i) = true

theorem start : Statement .start := ⟨by decide, by decide, by decide⟩

theorem ldoff : Statement .ldoff := ⟨by decide, by decide, by decide⟩

theorem ldwgt : Statement .ldwgt := ⟨by decide, by decide, by decide⟩

theorem ldin : Statement .ldin := ⟨by decide, by decide, by decide⟩

theorem accinit : Statement .accinit := ⟨by decide, by decide, by decide⟩

theorem mac : Statement .mac := ⟨by decide, by decide, by decide⟩

theorem accwb : Statement .accwb := ⟨by decide, by decide, by decide⟩

theorem stout : Statement .stout := ⟨by decide, by decide, by decide⟩

theorem ack : Statement .ack := ⟨by decide, by decide, by decide⟩

end Sys2Proof.Laws.Selector
end

