-- ==== Sys2Proof/Laws/Safety.lean ====
section
/-! SUPPORT. What the invariant and the tracking relation say phase by phase, so that no later proof unfolds their matches; and the
small lemmas of the launch premises. -/

namespace Sys2Proof.Machine

open Sys2Proof

variable {s : State} {S : Nat → Payload}

/-! ### The invariant (R55) -/

theorem State.phaseInv_idle (h : s.phase = .idle) :
    s.PhaseInv ↔ s.cs = .init ∧ s.icnt ≤ s.cfg.isSize ∧ s.ocnt ≤ s.cfg.osSize := by
  unfold State.PhaseInv
  rw [h]

theorem State.phaseInv_loadOffsets (h : s.phase = .loadOffsets) :
    s.PhaseInv ↔ s.cs = .init ∧ s.cnt < s.cfg.offPkts ∧ s.t = 0 ∧ s.icnt = s.cnt ∧ s.ocnt = 0 := by
  unfold State.PhaseInv
  rw [h]

theorem State.phaseInv_loadWeights (h : s.phase = .loadWeights) :
    s.PhaseInv ↔ s.cs = .init ∧ s.cnt < s.cfg.wgtPkts ∧ s.t = 0 ∧ s.icnt = s.cfg.offPkts + s.cnt ∧ s.ocnt = 0 := by
  unfold State.PhaseInv
  rw [h]

theorem State.phaseInv_loadTile (h : s.phase = .loadTile) :
    s.PhaseInv ↔ s.cs = .init ∧ s.cnt < s.cfg.tileInPkts
      ∧ s.icnt = s.cfg.offPkts + s.cfg.wgtPkts + s.t * s.cfg.tileInPkts + s.cnt ∧ s.ocnt = s.t * s.cfg.tileOutPkts := by
  unfold State.PhaseInv
  rw [h]

theorem State.phaseInv_computeTile (h : s.phase = .computeTile) :
    s.PhaseInv ↔ s.cs ≠ .reserved ∧ s.i < s.cfg.tiling ∧ s.j < s.cfg.classes ∧ (s.cs = .macs → s.g < s.cfg.ng)
      ∧ s.icnt = s.cfg.offPkts + s.cfg.wgtPkts + (s.t + 1) * s.cfg.tileInPkts ∧ s.ocnt = s.t * s.cfg.tileOutPkts := by
  unfold State.PhaseInv
  rw [h]

theorem State.phaseInv_storeTile (h : s.phase = .storeTile) :
    s.PhaseInv ↔ s.cs = .init ∧ s.cnt < s.cfg.tileOutPkts
      ∧ s.icnt = s.cfg.offPkts + s.cfg.wgtPkts + (s.t + 1) * s.cfg.tileInPkts
      ∧ s.ocnt = s.t * s.cfg.tileOutPkts + s.cnt := by
  unfold State.PhaseInv
  rw [h]

theorem State.phaseInv_done (h : s.phase = .done) :
    s.PhaseInv ↔ s.cs = .init ∧ s.icnt = s.cfg.isSize ∧ s.ocnt = s.cfg.osSize := by
  unfold State.PhaseInv
  rw [h]

theorem State.phaseInv_reserved (h : s.phase = .reserved) :
    s.PhaseInv ↔ False := by
  unfold State.PhaseInv
  rw [h]

/-! ### The buffers and the accumulator against the stream (R127, R132, R144, R145) -/

theorem State.buffersTrack_loadOffsets (h : s.phase = .loadOffsets) :
    s.buffersTrack S ↔ ∀ j < 2 * s.cnt, s.offAt j = refOff S j := by
  unfold State.buffersTrack
  rw [h]

theorem State.buffersTrack_loadWeights (h : s.phase = .loadWeights) :
    s.buffersTrack S ↔ s.offLoaded S ∧ ∀ j < s.cfg.classes, ∀ k < s.cfg.feat, j * s.cfg.fpp + k / 8 < s.cnt →
      s.wgtAt j k = refWgt s.cfg S j k := by
  unfold State.buffersTrack
  rw [h]

theorem State.buffersTrack_loadTile (h : s.phase = .loadTile) :
    s.buffersTrack S ↔ s.offLoaded S ∧ s.wgtLoaded S ∧ ∀ i < s.cfg.tiling, ∀ k < s.cfg.feat, i * s.cfg.fpp + k / 8 < s.cnt →
      s.inpAt i k = refInp s.cfg S (s.t * s.cfg.tiling + i) k := by
  unfold State.buffersTrack
  rw [h]

theorem State.buffersTrack_computeTile (h : s.phase = .computeTile) :
    s.buffersTrack S ↔ s.offLoaded S ∧ s.wgtLoaded S ∧ s.tileLoaded S ∧ s.accTracks S ∧ ∀ i < s.cfg.tiling, ∀ j < s.cfg.classes,
      i * s.cfg.classes + j < s.i * s.cfg.classes + s.j → s.outAt i j = refY s.cfg S (s.t * s.cfg.tiling + i) j := by
  unfold State.buffersTrack
  rw [h]

theorem State.buffersTrack_storeTile (h : s.phase = .storeTile) :
    s.buffersTrack S ↔ s.offLoaded S ∧ s.wgtLoaded S ∧ ∀ i < s.cfg.tiling, ∀ j < s.cfg.classes,
      s.outAt i j = refY s.cfg S (s.t * s.cfg.tiling + i) j := by
  unfold State.buffersTrack
  rw [h]

theorem State.buffersTrack_idle (h : s.phase = .idle) : s.buffersTrack S := by
  unfold State.buffersTrack
  rw [h]
  trivial

theorem State.buffersTrack_done (h : s.phase = .done) : s.buffersTrack S := by
  unfold State.buffersTrack
  rw [h]
  trivial

theorem State.accTracks_init (h : s.cs = .init) :
    s.accTracks S ↔ True := by
  unfold State.accTracks
  rw [h]

theorem State.accTracks_macs (h : s.cs = .macs) :
    s.accTracks S ↔ s.acc = wrap 32 (sval (refOff S s.j)
      + refDot s.cfg S (s.t * s.cfg.tiling + s.i) s.j (min (s.g * s.cfg.lanes) s.cfg.feat)) := by
  unfold State.accTracks
  rw [h]

theorem State.accTracks_wb (h : s.cs = .wb) :
    s.accTracks S ↔ s.acc = refY s.cfg S (s.t * s.cfg.tiling + s.i) s.j := by
  unfold State.accTracks
  rw [h]

/-! ### The packets of an invocation and the launch premises (R206) -/

@[simp] theorem sentBy_nil (c : Config) : sentBy c [] = [] := rfl

@[simp] theorem sentBy_kernel (c : Config) (l : List Turn) : sentBy c (.kernel :: l) = sentBy c l := rfl

@[simp] theorem sentBy_send (c : Config) (p : Packet) (l : List Turn) :
    sentBy c (.host (.send p) :: l) = p.carried c :: sentBy c l := rfl

@[simp] theorem sentBy_recv (c : Config) (l : List Turn) : sentBy c (.host .recv :: l) = sentBy c l := rfl

@[simp] theorem sentBy_start (c : Config) (l : List Turn) : sentBy c (.host .start :: l) = sentBy c l := rfl

@[simp] theorem sentBy_ack (c : Config) (l : List Turn) : sentBy c (.host .ack :: l) = sentBy c l := rfl

@[simp] theorem sentBy_append (c : Config) (l l' : List Turn) : sentBy c (l ++ l') = sentBy c l ++ sentBy c l' :=
  List.filterMap_append

/-- A state before `DONE` is underway from itself. -/
theorem State.underway_zero (h : s.phase ≠ .done) : s.Underway 0 s := by
  refine ⟨run_zero s, fun m hm u hu => ?_⟩
  obtain rfl := Nat.le_zero.1 hm
  rw [run_zero] at hu
  cases hu
  exact h

/-- What is underway from the next state is underway from this one. -/
theorem State.Underway.succ {t u : State} {n : Nat} (ht : step s = .next t) (hs : s.phase ≠ .done) (h : t.Underway n u) :
    s.Underway (n + 1) u := by
  refine ⟨by rw [run_succ ht]; exact h.1, fun m hm v hv => ?_⟩
  cases m with
  | zero => exact (State.underway_zero hs).2 0 (Nat.le_refl 0) v hv
  | succ m =>
    rw [run_succ ht] at hv
    exact h.2 m (Nat.le_of_succ_le_succ hm) v hv

/-- The whole stream in the channel and nobody's turn scheduled: exactly the packets of the stream come. -/
theorem State.hostSends_of_whole (hs : s.sched = []) (h : s.inCh.map Packet.data = (List.range s.cfg.isSize).map S) :
    s.HostSends S where
  each m hm := by
    have hp : s.pending = s.inCh := by simp [State.pending, hs]
    rw [hp, ← List.getElem?_map, h]
    simp [hm]
  nothingElse n t _ := by
    have hl := congrArg List.length h
    simp only [List.length_map, List.length_range] at hl
    simp [hs, hl]

/-- The whole stream in the channel is a clean channel. -/
theorem State.inClean_of_whole (h : s.inCh.map Packet.data = (List.range s.cfg.isSize).map S) : s.InClean S := by
  unfold State.InClean
  rw [h]

/-- Exactly the packets of the stream come, so those that come are its packets. -/
theorem State.HostSends.feeds (h : s.HostSends S) : s.Feeds S 0 := by
  intro m p hp hm
  have := h.each m (by omega)
  rw [hp] at this
  simpa using this

/-- Exactly the packets of the stream come, so enough of them do. -/
theorem State.HostSends.fed (h : s.HostSends S) : s.fed 0 := by
  by_contra hn
  unfold State.fed at hn
  have := h.each (s.cfg.isSize - 1) (by omega)
  rw [List.getElem?_eq_none (by omega)] at this
  cases this

end Sys2Proof.Machine
end

