-- ==== Sys2Proof/Tests/Slice0.lean ====
section
/-! SUPPORT. The model's own tests. Every expected value is the spec's own vector (95_test_vectors.md, cited as V<n>) or is worked out
by hand from the rule cited; then, for every statement that has hypotheses, a witness that meets them. -/

namespace Sys2Proof.Tests

open Sys2Proof Sys2Proof.Machine

/-! ### The static checks (V100-V111) and the reserved selectors -/

theorem test_cfgchk_valid : (Params.decided 2 8 2 1).cfgchk = none ∧ (Params.decided 4 8 2 4).cfgchk = none
    ∧ (Params.decided 1 40 2 1).cfgchk = none := by decide

theorem test_cfgchk_classes : (Params.decided 2 8 3 1).cfgchk = some .cfgClasses
    ∧ (Params.decided 2 8 0 1).cfgchk = some .cfgClasses := by decide

theorem test_cfgchk_feat : (Params.decided 2 12 2 1).cfgchk = some .cfgFeat
    ∧ (Params.decided 2 0 2 1).cfgchk = some .cfgFeat := by decide

theorem test_cfgchk_batch : (Params.decided 3 8 2 2).cfgchk = some .cfgBatch
    ∧ (Params.decided 2 8 2 0).cfgchk = some .cfgBatch ∧ (Params.decided 0 8 2 1).cfgchk = some .cfgBatch := by decide

theorem test_cfgchk_width : { Params.decided 2 8 2 1 with wWgt := 16 }.cfgchk = some .cfgWidth := by decide

theorem test_cfgchk_first_wins : (Params.decided 3 12 3 2).cfgchk = some .cfgClasses := by decide

theorem test_buildable : (Params.decided 2 8 2 1).buildable = true := by decide

theorem test_not_buildable_unchecked : (Params.decided 2 8 3 1).buildable = false := by decide

theorem test_not_buildable_widths :
    { Params.decided 2 8 2 1 with payloadW := 128, wOff := 64, wWgt := 16, wIn := 16, wOut := 64 }.buildable = false := by
  decide

theorem test_not_buildable_lanes : { Params.decided 2 8 2 1 with lanes := 0 }.buildable = false := by decide

theorem test_not_buildable_id : { Params.decided 2 8 2 1 with idW := 1, outId := 2 }.buildable = false := by decide

theorem test_reserved_selectors : selWellFormed 0b11100#5 = false ∧ selWellFormed 0b11111#5 = false
    ∧ selWellFormed 0b10011#5 = false ∧ selWellFormed 0b10010#5 = true := by decide

theorem test_decode_refuses_reserved :
    (decodeTableWord 8 0b11100, decodeTableWord 8 0b10011, decodeTableWord 8 0b100000) = (none, none, none)
      ∧ (match decode 0b11100#5 with | .error e => decide (e = .reservedPhase) | .ok _ => false) = true
      ∧ (match decode 0b10011#5 with | .error e => decide (e = .reservedSubStep) | .ok _ => false) = true := by decide

/-! ### Decoding: one word of each operation, written out from the selector table (R104) -/

theorem test_decode_start : decodeTableWord 8 0b00000 = some .start := by decide

theorem test_decode_ldoff : decodeTableWord 8 0b00100 = some .ldoff := by decide

theorem test_decode_ldwgt : decodeTableWord 8 0b01000 = some .ldwgt := by decide

theorem test_decode_ldin : decodeTableWord 8 0b01100 = some .ldin := by decide

theorem test_decode_accinit : decodeTableWord 8 0b10000 = some .accinit := by decide

theorem test_decode_mac : decodeTableWord 8 0b10001 = some .mac := by decide

theorem test_decode_accwb : decodeTableWord 8 0b10010 = some .accwb := by decide

theorem test_decode_stout : decodeTableWord 8 0b10100 = some .stout := by decide

theorem test_decode_ack : decodeTableWord 8 0b11000 = some .ack := by decide

/-! ### Lanes, packing, numeric readings (V1-V15), products (V40-V45), derived constants (V92-V96) -/

theorem test_unpack : unpack 8 8 0x8877665544332211#64
      = [0x11#8, 0x22#8, 0x33#8, 0x44#8, 0x55#8, 0x66#8, 0x77#8, 0x88#8]
    ∧ unpack 32 2 0x8877665544332211#64 = [0x44332211#32, 0x88776655#32] := by decide

theorem test_pack : pack 32 [wrap 32 (-1), wrap 32 2] = 0x00000002FFFFFFFF#64
    ∧ pack 32 [wrap 32 8, wrap 32 16] = 0x0000001000000008#64
    ∧ pack 8 [1#8, 2#8, 3#8, 4#8, 5#8, 6#8, 7#8, 8#8] = 0x0807060504030201#64 := by decide

theorem test_wrap : wrap 32 2147483648 = 0x80000000#32 ∧ wrap 32 (-2147483649) = 0x7FFFFFFF#32
    ∧ wrap 32 4294967296 = 0#32 ∧ sval (wrap 32 2147483648) = -2147483648 := by decide

theorem test_readings : sval 0x80#8 = -128 ∧ sval 0x7F#8 = 127 ∧ sval 0xFF#8 = -1 ∧ uval 0xFF#8 = 255
    ∧ sext 32 0xF9#8 = 0xFFFFFFF9#32 ∧ zext 32 0xF9#8 = 0x000000F9#32 := by decide

theorem test_prod : prod 0xFF#8 0xFF#8 = -255 ∧ prod 0x80#8 0x80#8 = -16384 ∧ prod 0x00#8 0x80#8 = 0
    ∧ prod 0x80#8 0x00#8 = 0 := by decide

/-! ### Small machines -/

/-- `CLASSES = 2, FEAT = 8, BATCH = 2, TILING = 1` (P2). -/
def cfgA : Config := exampleConfig

/-- `CLASSES = 4, FEAT = 16, BATCH = 4, TILING = 2` (P3). -/
def cfgB : Config := ⟨Params.decided 4 16 4 2, by decide⟩

/-- `CLASSES = 2, FEAT = 40, BATCH = 1, TILING = 1` (P6). -/
def cfgC : Config := ⟨Params.decided 1 40 2 1, by decide⟩

/-- `CLASSES = 2, FEAT = 8, BATCH = 1, TILING = 1` (P1). -/
def cfgD : Config := ⟨Params.decided 1 8 2 1, by decide⟩

/-- A packet; its sideband is odd on purpose (R100). -/
def pkt (d : Payload) : Packet := ⟨d, 0x5A#8, 1, true⟩

/-- A buffer whose first elements are those of the list. -/
def cells {w : Nat} (l : List (BitVec w)) : Buf w := Buf.writeRun 0 l []

/-- A machine in a phase, with an input channel. -/
def inPhase (c : Config) (ph : Phase) (q : List Payload) : State :=
  { State.resetWith c with phase := ph, inCh := q.map pkt }

/-- The answer is a next state of which `p` holds. -/
def after (r : Result) (p : State → Bool) : Bool :=
  match r with
  | .next t => p t
  | .fault _ => false
  | .refused _ => false

theorem test_steps : cfgD.steps = 12 ∧ cfgA.steps = 20 ∧ cfgB.steps = 75 ∧ cfgC.steps = 26 := by decide

/-! ### One step of each operation -/

/-- V86: the left-overs of an earlier run are cleared. -/
theorem test_start : after (exec .start { inPhase cfgA .idle [] with icnt := 5, ocnt := 2, t := 1, startReq := true })
    (fun t => t.phase = .loadOffsets && t.icnt = 0 && t.ocnt = 0 && t.t = 0) = true := by decide

/-- V87. -/
theorem test_start_too_late :
    after (exec .start { inPhase cfgA .loadTile [] with startReq := true }) (fun t => t.phase = .loadTile) = true := by decide

/-- V22. -/
theorem test_ldoff : after (exec .ldoff { inPhase cfgB .loadOffsets [0xFFFFFFFF00000000#64] with cnt := 1, icnt := 1 })
    (fun t => t.mem.off = [(2, 0#32), (3, 0xFFFFFFFF#32)] && t.phase = .loadWeights && t.cnt = 0 && t.icnt = 2
      && t.inCh.isEmpty) = true := by decide

/-- V20. -/
theorem test_ldoff_single : after (exec .ldoff (inPhase cfgA .loadOffsets [0xFFFFFFF900000064#64]))
    (fun t => t.mem.off = [(0, 100#32), (1, 0xFFFFFFF9#32)] && t.phase = .loadWeights) = true := by decide

/-- V30. -/
theorem test_ldwgt : after (exec .ldwgt { inPhase cfgB .loadWeights [0xF0F1F2F3F4F5F6F7#64] with cnt := 3 })
    (fun t => (List.range 8).map (fun e => sval (t.wgtAt 1 (8 + e))) = [-9, -10, -11, -12, -13, -14, -15, -16]
      && t.cnt = 4 && t.phase = .loadWeights) = true := by decide

/-- V26. -/
theorem test_ldwgt_last : after (exec .ldwgt { inPhase cfgA .loadWeights [0x01F60AFB05007F80#64] with cnt := 1 })
    (fun t => (List.range 8).map (fun e => sval (t.wgtAt 1 e)) = [-128, 127, 0, 5, -5, 10, -10, 1]
      && t.cnt = 0 && t.phase = .loadTile) = true := by decide

/-- V38. -/
theorem test_ldin : after (exec .ldin { inPhase cfgB .loadTile [0xFFFFFFFFFFFFFFFF#64] with cnt := 3 })
    (fun t => (List.range 8).map (fun e => uval (t.inpAt 1 (8 + e))) = [255, 255, 255, 255, 255, 255, 255, 255]
      && t.phase = .computeTile && t.cs = .init) = true := by decide

/-- V37. -/
theorem test_ldin_order : after (exec .ldin { inPhase cfgB .loadTile [0x0F0E0D0C0B0A0908#64] with cnt := 1 })
    (fun t => (List.range 8).map (fun e => uval (t.inpAt 0 (8 + e))) = [8, 9, 10, 11, 12, 13, 14, 15]
      && t.cnt = 2) = true := by decide

/-- The compute phase of P2 for row `[255,0,1,2,3,4,5,6]`, its two rows of weights and its offsets. -/
def compute (cs : SubStep) : State :=
  { inPhase cfgA .computeTile [] with
    cs := cs, icnt := 4
    mem := { State.reset.mem with
      off := cells [100#32, 0xFFFFFFF9#32]
      inp := cells (unpack 8 8 0x06050403020100FF#64)
      wgt := cells (unpack 8 8 0xFC04FD03FE02FF01#64 ++ unpack 8 8 0x01F60AFB05007F80#64) } }

/-- V50. -/
theorem test_accinit : after (exec .accinit { compute .init with j := 1, g := 3, acc := 5#32 })
    (fun t => t.acc = 0xFFFFFFF9#32 && t.g = 0 && t.cs = .macs) = true := by decide

/-- V53. -/
theorem test_mac : after (exec .mac { compute .macs with j := 1, acc := 0xFFFFFFF9#32 })
    (fun t => t.acc = 0xFFFF8070#32 && t.cs = .wb) = true := by decide

/-- V59: a partial last group. -/
theorem test_mac_partial : after (exec .mac { inPhase cfgC .computeTile [] with
      cs := .macs, g := 1, acc := 533#32
      mem := { State.reset.mem with
        inp := cells ((List.range 40).map fun k => BitVec.ofNat 8 (k + 1))
        wgt := cells (List.replicate 40 1#8) } })
    (fun t => t.acc = 825#32 && t.cs = .wb) = true := by decide

/-- V62. -/
theorem test_accwb : after (exec .accwb { inPhase cfgB .computeTile [] with cs := .wb, j := 3, g := 1, acc := 0xFFFF8070#32 })
    (fun t => t.mem.out = [(3, 0xFFFF8070#32)] && t.i = 1 && t.j = 0 && t.g = 0 && t.cs = .init
      && t.phase = .computeTile) = true := by decide

/-- V63. -/
theorem test_accwb_last : after (exec .accwb { inPhase cfgA .computeTile [] with cs := .wb, j := 1, cnt := 9, acc := 7#32 })
    (fun t => t.mem.out = [(1, 7#32)] && t.phase = .storeTile && t.cnt = 0 && t.cs = .init) = true := by decide

/-- The store phase of V76: the last tile of `cfgA`. -/
def store : State :=
  { inPhase cfgA .storeTile [] with
    t := 1, icnt := 5, ocnt := 1, mem := { State.reset.mem with out := cells [0#32, 0x0000049F#32] } }

/-- V76. -/
theorem test_stout_last : after (exec .stout store)
    (fun t => t.outCh = [⟨0x0000049F00000000#64, 0xFF#8, 0, true⟩] && t.ocnt = 2 && t.phase = .done) = true := by decide

/-- V77, V81: the last packet of a tile that is not the last tile carries no flag. -/
theorem test_stout_tile : after (exec .stout { inPhase cfgB .storeTile [] with
      cnt := 3, ocnt := 3
      mem := { State.reset.mem with out := cells ((List.replicate 6 0#32) ++ [0xFFFFF808#32, 0xFFFFFF00#32]) } })
    (fun t => t.outCh = [⟨0xFFFFFF00FFFFF808#64, 0xFF#8, 0, false⟩] && t.phase = .loadTile && t.t = 1 && t.cnt = 0) = true := by
  decide

/-- V88. -/
theorem test_ack : after (exec .ack { inPhase cfgA .done [] with ackReq := true })
    (fun t => t.phase = .idle && t.idleOut && !t.doneOut) = true := by decide

/-- V89, V90. -/
theorem test_ack_not_enabled :
    after (exec .ack { inPhase cfgA .computeTile [] with ackReq := true }) (fun t => t.phase = .computeTile) = true
      ∧ after (exec .ack (inPhase cfgA .done [])) (fun t => t.doneOut) = true := by decide

/-- From reset with the operation placed, one step runs each of the nine (log 16). -/
theorem test_first_step : (List.all [0b00000, 0b00100, 0b01000, 0b01100, 0b10000, 0b10001, 0b10010, 0b10100, 0b11000]
    fun w => after (step (State.reset.withFetchWord 8 w)) fun _ => true) = true := by decide

/-- R90: the packet of a send is in the channel with `ID_W` bits of its id, here 1. -/
theorem test_send_id : after (step { inPhase cfgA .idle [] with sched := [.host (.send ⟨7#64, 0xFF#8, 3, true⟩)] })
    (fun t => t.inCh = [⟨7#64, 0xFF#8, 1, true⟩]) = true := by decide

/-! ### Witnesses: states and operands that meet the hypotheses of the statements, at the ends of their ranges -/

/-- P2's payloads. -/
def streamA : List Payload :=
  [0xFFFFFFF900000064#64, 0xFC04FD03FE02FF01#64, 0x01F60AFB05007F80#64, 0x06050403020100FF#64, 0x50463C32281E140A#64]

/-- P2's stream, as the statements take it. -/
def payloads : Nat → Payload := fun n => streamA.getD n 0#64

/-- P2's kernel at the start, with the whole stream in the channel, whatever stands in `acc`, the counters and the sub-step: no
premise speaks of them (R206). -/
def ready : State :=
  { inPhase cfgA .idle streamA with startReq := true, acc := 77#32, icnt := 99, ocnt := 98, t := 97, cnt := 96, cs := .macs }

/-- The same, with the other tile size and another number of lanes. -/
def readyRetiled : State :=
  { inPhase ⟨{ Params.decided 2 8 2 2 with lanes := 4 }, by decide⟩ .idle streamA with startReq := true }

/-- P1's kernel at the start. -/
def readyShort : State :=
  { inPhase cfgD .idle [0#64, 0x0101010101010101#64, 0x0202020202020202#64, 0x0101010101010101#64] with startReq := true }

/-- P2's kernel inside the first tile: one output written, the second about to take its products. -/
def midRun : State :=
  { compute .macs with
    inCh := [pkt 0x50463C32281E140A#64], j := 1, acc := 0xFFFFFFF9#32
    mem := { (compute .macs).mem with out := cells [0x0000015A#32] } }

theorem ready_sound : ready.Sound where
  memWf := by decide
  capacity := by rintro n ⟨⟩
  startIdle := by decide
  ackDone := by decide
  ids := by decide

theorem readyRetiled_sound : readyRetiled.Sound where
  memWf := by decide
  capacity := by rintro n ⟨⟩
  startIdle := by decide
  ackDone := by decide
  ids := by decide

theorem readyShort_sound : readyShort.Sound where
  memWf := by decide
  capacity := by rintro n ⟨⟩
  startIdle := by decide
  ackDone := by decide
  ids := by decide

theorem midRun_inv : midRun.Inv where
  phaseInv := (State.phaseInv_computeTile rfl).2 (by decide)
  tile := by decide
  memWf := by decide
  capacity := by rintro n ⟨⟩
  startIdle := by decide
  ackDone := by decide
  ids := by decide

theorem store_inv : store.Inv where
  phaseInv := (State.phaseInv_storeTile rfl).2 (by decide)
  tile := by decide
  memWf := by decide
  capacity := by rintro n ⟨⟩
  startIdle := by decide
  ackDone := by decide
  ids := by decide

theorem ready_feeds : ready.Feeds payloads 0 := by
  intro m p h _
  have hp : ready.pending = streamA.map pkt := by decide
  rw [hp] at h
  rcases m with _ | _ | _ | _ | _ | m <;> simp [streamA, pkt] at h <;> subst h <;> rfl

theorem midRun_feeds : midRun.Feeds payloads midRun.icnt := by
  intro m p h _
  have hp : midRun.pending = [pkt 0x50463C32281E140A#64] := by decide
  rw [hp] at h
  rcases m with _ | m
  · cases h
    rfl
  · cases h

theorem midRun_tracks : midRun.Tracks payloads [] where
  inv := midRun_inv
  running := by decide
  feeds := midRun_feeds
  buffers := (State.buffersTrack_computeTile rfl).2
    ⟨by unfold State.offLoaded; decide, by unfold State.wgtLoaded; decide, by unfold State.tileLoaded; decide,
      (State.accTracks_macs rfl).2 (by decide), by decide⟩
  pushed := by decide

theorem test_witness_selector : Instr.selectedBy .mac 0b10001#5 = true ∧ (compute .macs).enabledOp = some .mac
    ∧ ready.enabledOp = some .start := by decide

theorem test_witness_codes : midRun.Inv ∧ ready.phase ≠ .computeTile := ⟨midRun_inv, by decide⟩

theorem test_witness_pack : 8 * 8 = 64 ∧ 2 * 32 = 64 ∧ 1 * 64 = 64 ∧ 64 * 1 = 64
    ∧ [0x89ABCDEF#32, 0x01234567#32].length = 2 ∧ 0 < 8 ∧ 7 < 8 := by decide

theorem test_witness_reserved :
    (inPhase cfgA .reserved []).phase = .reserved
      ∧ (compute .reserved).phase = .computeTile ∧ (compute .reserved).cs = .reserved ∧ (compute .reserved).sched = []
      ∧ midRun.Inv := ⟨rfl, rfl, rfl, rfl, midRun_inv⟩

theorem test_witness_reset : AfterReset cfgB { State.resetWith cfgB with acc := 9#32, sched := [.host .start, .kernel] } :=
  ⟨9#32, [.host .start, .kernel], rfl⟩

theorem test_witness_step : (∀ m rest, midRun.sched ≠ .host m :: rest) ∧ (decode midRun.sel).toOption = some .mac
    ∧ ∀ m rest, { midRun with sched := [.kernel] }.sched ≠ .host m :: rest :=
  ⟨nofun, by decide, nofun⟩

theorem test_witness_environment :
    { midRun with sched := [.host (.send (pkt 1#64))] }.sched = .host (.send (pkt 1#64)) :: []
      ∧ ({ midRun with sched := [.host .recv] }.sched = .host .recv :: [] ∧ midRun.outCh = [])
      ∧ { midRun with sched := [.host .recv], outCh := [pkt 1#64] }.outCh = pkt 1#64 :: []
      ∧ { ready with sched := [.host .start] }.phase = .idle
      ∧ { inPhase cfgA .done [] with sched := [.host .ack] }.phase = .done := by decide

theorem test_witness_wrong_time : midRun.phase ≠ .idle ∧ midRun.phase ≠ .done
    ∧ { midRun with sched := [.host .start] }.sched = .host .start :: []
    ∧ { midRun with sched := [.host .ack] }.sched = .host .ack :: [] := by decide

theorem test_witness_environment_step : ∃ t, step { midRun with sched := [.host .recv] } = .next t := ⟨_, rfl⟩

theorem test_witness_done : (∃ t, step (inPhase cfgA .done []) = .next t)
    ∧ ∃ t, step { inPhase cfgA .done [] with ackReq := true } = .next t ∧ t.phase = .idle := ⟨⟨_, rfl⟩, _, rfl, rfl⟩

theorem test_witness_start : ready.phase = .idle ∧ ready.startReq = true
    ∧ ¬ (midRun.phase = .idle ∧ midRun.startReq = true) := by decide

theorem test_witness_ack : (inPhase cfgA .done []).phase = .done ∧ { inPhase cfgA .done [] with ackReq := true }.ackReq = true
    ∧ ¬ ((inPhase cfgA .done []).phase = .done ∧ (inPhase cfgA .done []).ackReq = true) := by decide

theorem test_witness_ldoff : ∀ n ∈ [0, 1],
    let s := { inPhase cfgB .loadOffsets [0xFFFFFFFF00000000#64] with cnt := n }
    s.phase = .loadOffsets ∧ s.inCh = pkt 0xFFFFFFFF00000000#64 :: [] ∧ s.cnt < s.cfg.offPkts
      ∧ ¬ ((inPhase cfgB .loadOffsets []).phase = .loadOffsets ∧ (inPhase cfgB .loadOffsets []).inCh ≠ []) := by decide

theorem test_witness_ldwgt : ∀ n ∈ [0, 7],
    let s := { inPhase cfgB .loadWeights [1#64] with cnt := n }
    s.phase = .loadWeights ∧ s.inCh = pkt 1#64 :: [] ∧ s.cnt < s.cfg.wgtPkts
      ∧ bufIndex s.cfg .wgt (s.cnt / s.cfg.fpp) (8 * (s.cnt % s.cfg.fpp)) = 8 * n
      ∧ ¬ ((inPhase cfgB .loadWeights []).phase = .loadWeights ∧ (inPhase cfgB .loadWeights []).inCh ≠ []) := by decide

theorem test_witness_ldin : ∀ n ∈ [0, 3],
    let s := { inPhase cfgB .loadTile [1#64] with cnt := n }
    s.phase = .loadTile ∧ s.inCh = pkt 1#64 :: [] ∧ s.cnt < s.cfg.tileInPkts
      ∧ bufIndex s.cfg .inp (s.cnt / s.cfg.fpp) (8 * (s.cnt % s.cfg.fpp)) = 8 * n
      ∧ ¬ ((inPhase cfgB .loadTile []).phase = .loadTile ∧ (inPhase cfgB .loadTile []).inCh ≠ []) := by decide

theorem test_witness_accinit : ∀ j ∈ [0, 1],
    let s := { compute .init with j := j }
    s.phase = .computeTile ∧ s.cs = .init ∧ s.j < s.cfg.classes ∧ ¬ (midRun.phase = .computeTile ∧ midRun.cs = .init) := by
  decide

theorem test_witness_mac : ∀ j ∈ [0, 1],
    let s := { compute .macs with j := j }
    s.phase = .computeTile ∧ s.cs = .macs ∧ s.i < s.cfg.tiling ∧ s.j < s.cfg.classes
      ∧ ¬ (ready.phase = .computeTile ∧ ready.cs = .macs) := by decide

theorem test_witness_accwb : ∀ ij ∈ [(0, 0), (0, 3), (1, 3)],
    let s := { inPhase cfgB .computeTile [] with cs := .wb, i := ij.1, j := ij.2 }
    s.phase = .computeTile ∧ s.cs = .wb ∧ s.i < s.cfg.tiling ∧ s.j < s.cfg.classes
      ∧ ¬ (midRun.phase = .computeTile ∧ midRun.cs = .wb) := by decide

/-- A kernel whose output channel holds one packet at most. -/
def cfgFull : Config := ⟨{ Params.decided 2 8 2 1 with outCap := some 1 }, by decide⟩

/-- The store phase with a full output channel. -/
def storeFull : State := { inPhase cfgFull .storeTile [] with icnt := 4, outCh := [pkt 3#64] }

theorem storeFull_inv : storeFull.Inv where
  phaseInv := (State.phaseInv_storeTile rfl).2 (by decide)
  tile := by decide
  memWf := by decide
  capacity := by
    rintro n ⟨⟩
    decide
  startIdle := by decide
  ackDone := by decide
  ids := by decide

theorem test_witness_stout : (∀ n ∈ [0, 3],
    let s := { inPhase cfgB .storeTile [] with cnt := n }
    s.phase = .storeTile ∧ s.hasRoom = true ∧ s.cnt < s.cfg.tileOutPkts)
      ∧ ¬ (storeFull.phase = .storeTile ∧ storeFull.hasRoom = true) := by decide

theorem test_witness_disabled : ready.enabledOp ≠ some .mac ∧ storeFull.enabledOp ≠ some .stout
    ∧ (inPhase cfgA .loadTile []).enabledOp ≠ some .ldin := by decide

/-- The first count, class and row past the end, for each clause. -/
theorem test_witness_missing :
    (let s := { inPhase cfgB .loadOffsets [1#64] with cnt := 2 };
      s.phase = .loadOffsets ∧ s.inCh ≠ [] ∧ s.cfg.offPkts ≤ s.cnt)
    ∧ (let s := { inPhase cfgB .loadWeights [1#64] with cnt := 8 };
      s.phase = .loadWeights ∧ s.inCh ≠ [] ∧ s.cfg.wgtPkts ≤ s.cnt)
    ∧ (let s := { inPhase cfgB .loadTile [1#64] with cnt := 4 };
      s.phase = .loadTile ∧ s.inCh ≠ [] ∧ s.cfg.tileInPkts ≤ s.cnt)
    ∧ (let s := { inPhase cfgB .computeTile [] with j := 4 };
      s.phase = .computeTile ∧ s.cs = .init ∧ s.cfg.classes ≤ s.j)
    ∧ (let s := { inPhase cfgB .computeTile [] with cs := .macs, i := 2 };
      s.phase = .computeTile ∧ s.cs = .macs ∧ s.cfg.tiling ≤ s.i)
    ∧ (let s := { inPhase cfgB .computeTile [] with cs := .macs, i := 1, j := 4 };
      s.phase = .computeTile ∧ s.cs = .macs ∧ s.i < s.cfg.tiling ∧ s.cfg.classes ≤ s.j)
    ∧ (let s := { inPhase cfgB .computeTile [] with cs := .wb, i := 2 };
      s.phase = .computeTile ∧ s.cs = .wb ∧ (s.cfg.tiling ≤ s.i ∨ s.cfg.classes ≤ s.j))
    ∧ (let s := { inPhase cfgB .storeTile [] with cnt := 4 };
      s.phase = .storeTile ∧ s.hasRoom = true ∧ s.cfg.tileOutPkts ≤ s.cnt) := by decide

theorem test_witness_writes : ∃ t, exec .mac midRun = .next t ∧ t.acc ≠ midRun.acc := ⟨_, rfl, by decide⟩

/-- Every clause of the transition table has a state that takes it. -/
theorem test_witness_transitions :
    (readyRetiled.t < readyRetiled.cfg.nt ∧ after (exec .start readyRetiled) (fun t => t.phase = .loadOffsets) = true)
      ∧ after (exec .ldoff (inPhase cfgA .loadOffsets [1#64])) (fun t => t.phase = .loadWeights) = true
      ∧ after (exec .ldwgt { inPhase cfgA .loadWeights [1#64] with cnt := 1 }) (fun t => t.phase = .loadTile) = true
      ∧ after (exec .ldin (inPhase cfgA .loadTile [1#64])) (fun t => t.phase = .computeTile) = true
      ∧ after (exec .accwb { inPhase cfgA .computeTile [] with cs := .wb, j := 1 }) (fun t => t.phase = .storeTile) = true
      ∧ after (exec .stout { store with t := 0, ocnt := 0 }) (fun t => t.phase = .loadTile && t.t = 1) = true
      ∧ after (exec .stout store) (fun t => t.phase = .done) = true
      ∧ after (exec .ack { inPhase cfgA .done [] with ackReq := true }) (fun t => t.phase = .idle) = true := by decide

theorem test_witness_control : SameControl midRun { midRun with acc := 0#32, inCh := [pkt 0#64], mem := State.reset.mem }
    ∧ (∃ t, exec .mac midRun = .next t) ∧ ∃ f, exec .mac { midRun with i := 1 } = .fault f :=
  ⟨⟨rfl, rfl, rfl, rfl, rfl, rfl, rfl, rfl, rfl, rfl, rfl, rfl, rfl, rfl⟩, ⟨_, rfl⟩, _, rfl⟩

theorem test_witness_sideband :
    [(⟨5#64, 0#8, 0, false⟩ : Packet)].map Packet.data = (inPhase cfgA .loadTile [5#64]).inCh.map Packet.data
      ∧ [(⟨5#64, 0#8, 0, false⟩ : Packet)] ≠ (inPhase cfgA .loadTile [5#64]).inCh
      ∧ ∃ t, exec .ldin (inPhase cfgA .loadTile [5#64]) = .next t := ⟨rfl, by decide, _, rfl⟩

theorem test_witness_canonical : midRun.mem.wf midRun.cfg ∧ ∃ t, step midRun = .next t := ⟨midRun_inv.memWf, _, rfl⟩

theorem test_witness_invariant : midRun.Inv ∧ ∃ t, step midRun = .next t := ⟨midRun_inv, _, rfl⟩

theorem test_witness_last_flag : store.Inv ∧ store.phase = .storeTile ∧ store.hasRoom = true :=
  ⟨store_inv, rfl, rfl⟩

theorem loading_inv (ph : Phase) (c : Nat)
    (h : (ph, c) ∈ [(Phase.loadOffsets, 0), (.loadWeights, 1), (.loadWeights, 2), (.loadTile, 3)]) :
    State.Inv { inPhase cfgA ph [] with icnt := c, cnt := if ph = .loadWeights then c - 1 else 0 } where
  phaseInv := by
    simp only [List.mem_cons, Prod.mk.injEq, List.not_mem_nil, or_false] at h
    rcases h with ⟨rfl, rfl⟩ | ⟨rfl, rfl⟩ | ⟨rfl, rfl⟩ | ⟨rfl, rfl⟩
    · exact (State.phaseInv_loadOffsets rfl).2 (by decide)
    · exact (State.phaseInv_loadWeights rfl).2 (by decide)
    · exact (State.phaseInv_loadWeights rfl).2 (by decide)
    · exact (State.phaseInv_loadTile rfl).2 (by decide)
  tile := (by decide : 0 < cfgA.nt)
  memWf := State.resetWith_wf cfgA
  capacity := by rintro n ⟨⟩
  startIdle := nofun
  ackDone := nofun
  ids := by simp [inPhase, State.resetWith]

theorem test_witness_position :
    (State.Inv { inPhase cfgA .loadOffsets [] with icnt := 0, cnt := 0 } ∧ (inPhase cfgA .loadOffsets []).enabledOp = none)
      ∧ State.Inv { inPhase cfgA .loadWeights [] with icnt := 1, cnt := 0 }
      ∧ State.Inv { inPhase cfgA .loadWeights [] with icnt := 2, cnt := 1 }
      ∧ State.Inv { inPhase cfgA .loadTile [] with icnt := 3, cnt := 0 } :=
  ⟨⟨loading_inv .loadOffsets 0 (by decide), by decide⟩, loading_inv .loadWeights 1 (by decide),
    loading_inv .loadWeights 2 (by decide), loading_inv .loadTile 3 (by decide)⟩

theorem test_witness_stuck : (storeFull.Inv ∧ storeFull.stuck = true ∧ storeFull.outCh ≠ [])
    ∧ (midRun.Inv ∧ midRun.phase = .computeTile)
    ∧ State.stuck { inPhase cfgA .loadTile [] with icnt := 3, cnt := 0 } = true
    ∧ State.Inv { inPhase cfgA .loadTile [] with icnt := 3, cnt := 0 } :=
  ⟨⟨storeFull_inv, by decide, by decide⟩, ⟨midRun_inv, rfl⟩, by decide, loading_inv .loadTile 3 (by decide)⟩

theorem test_witness_waiting : (inPhase cfgA .loadTile []).sched = [] ∧ (inPhase cfgA .loadTile []).enabledOp = none := by decide

theorem test_witness_sequence : midRun.Inv ∧ midRun.enabledOp = some .mac ∧ Instr.mac ≠ .ack := ⟨midRun_inv, by decide, by decide⟩

/-- P1's build, with an output channel that holds one packet at most. -/
def cfgTight : Config := ⟨{ Params.decided 1 8 2 1 with outCap := some 1 }, by decide⟩

/-- The answer after `n` steps, if it is a next state, is one of which `p` holds. -/
def atStep (s : State) (n : Nat) (p : State → Bool) : Bool :=
  match Host.Core.run core n s with
  | .next t => p t
  | .fault _ => true
  | .refused _ => true

theorem of_atStep {s t : State} {n : Nat} {p : State → Bool} (h : atStep s n p = true)
    (ht : Host.Core.run core n s = .next t) : p t = true := by
  unfold atStep at h
  rw [ht] at h
  exact h

/-- What a check of the first `k` states shows of every state before `DONE`, when `DONE` comes after `k` steps. -/
theorem of_underway {s t : State} {k n : Nat} {p : State → Bool}
    (hk : after (Host.Core.run core k s) (fun u => u.phase = .done) = true) (h : ∀ n < k, atStep s n p = true)
    (ht : s.Underway n t) : p t = true := by
  by_cases hn : n < k
  · exact of_atStep (h n hn) ht.1
  · unfold after at hk
    split at hk
    · exact absurd (of_decide_eq_true hk) (ht.2 k (Nat.le_of_not_lt hn) _ ‹_›)
    · cases hk
    · cases hk

/-- The last output packet waits for room in a full output channel, which the environment is about to drain. -/
def storeTight : State :=
  { inPhase cfgTight .storeTile [] with icnt := 4, outCh := [pkt 3#64], sched := [.kernel, .host .recv] }

theorem storeTight_inv : storeTight.Inv where
  phaseInv := (State.phaseInv_storeTile rfl).2 (by decide)
  tile := by decide
  memWf := by decide
  capacity := by
    rintro n ⟨⟩
    decide
  startIdle := by decide
  ackDone := by decide
  ids := by decide

/-- `DONE` is reached after three steps. -/
theorem storeTight_drains : storeTight.HostDrains :=
  .inr fun _ _ hu hp hr => by
    have h := of_underway (k := 3) (p := fun t => t.phase != .storeTile || t.hasRoom || t.sched.contains (.host .recv))
      (by decide) (by decide) hu
    simpa [hp, hr] using h

theorem test_witness_reaches_done :
    (midRun.Inv ∧ midRun.phase ≠ .idle ∧ midRun.HostDrains ∧ midRun.fed midRun.icnt)
      ∧ storeTight.Inv ∧ storeTight.phase ≠ .idle ∧ storeTight.cfg.outCap = some 1 ∧ storeTight.HostDrains
      ∧ storeTight.fed storeTight.icnt :=
  ⟨⟨midRun_inv, by decide, .inl rfl, by unfold State.fed; decide⟩,
    storeTight_inv, by decide, rfl, storeTight_drains, by unfold State.fed; decide⟩

theorem test_witness_tracks : midRun.Tracks payloads [] ∧ ∃ t, step midRun = .next t := ⟨midRun_tracks, _, rfl⟩

theorem test_witness_start_tracks : ready.Sound ∧ ready.atIdle ∧ ready.Feeds payloads 0
    ∧ ∀ m rest, ready.sched ≠ .host m :: rest := ⟨ready_sound, ⟨rfl, rfl⟩, ready_feeds, nofun⟩

/-- P1's payloads. -/
def streamD : List Payload := [0#64, 0x0101010101010101#64, 0x0202020202020202#64, 0x0101010101010101#64]

/-- P1's stream, as the statements take it. -/
def payloadsD : Nat → Payload := fun n => streamD.getD n 0#64

/-- The phase after `n` steps. -/
def phaseAfter (s : State) (n : Nat) : Option Phase :=
  match Host.Core.run core n s with
  | .next t => some t.phase
  | .fault _ => none
  | .refused _ => none

theorem ready_whole : ready.inCh.map Packet.data = (List.range ready.cfg.isSize).map payloads := by decide

theorem readyRetiled_whole : readyRetiled.inCh.map Packet.data = (List.range readyRetiled.cfg.isSize).map payloads := by decide

theorem readyShort_whole : readyShort.inCh.map Packet.data = (List.range readyShort.cfg.isSize).map payloadsD := by decide

/-- The smallest run there is reaches `DONE` after 12 steps (P1) and not before. -/
theorem test_witness_every_run : readyShort.Sound ∧ readyShort.atIdle ∧ readyShort.InClean payloadsD
    ∧ readyShort.HostSends payloadsD ∧ phaseAfter readyShort 12 = some .done
    ∧ ∀ m < 12, phaseAfter readyShort m ≠ some .done :=
  ⟨readyShort_sound, ⟨rfl, rfl⟩, State.inClean_of_whole readyShort_whole, State.hostSends_of_whole rfl readyShort_whole,
    by decide, by decide⟩

/-- The same kernel with two packets too many. -/
def surplus : State := { readyShort with inCh := readyShort.inCh ++ [pkt 8#64, pkt 9#64] }

theorem surplus_sound : surplus.Sound := { readyShort_sound with ids := by decide }

theorem test_witness_surplus : surplus.Sound ∧ surplus.atIdle ∧ phaseAfter surplus 12 = some .done
    ∧ (∀ m < 12, phaseAfter surplus m ≠ some .done) ∧ surplus.pending.drop surplus.cfg.isSize = [pkt 8#64, pkt 9#64]
    ∧ surplus.KernelsTurn ∧ ∃ t, step surplus = .next t :=
  ⟨surplus_sound, ⟨rfl, rfl⟩, by decide, by decide, by decide, nofun, _, rfl⟩

theorem test_witness_closed_form : ready.Sound ∧ ready.atIdle ∧ ready.sched = [] ∧ ready.cfg.outCap = none
    ∧ ready.InClean payloads ∧ ready.HostSends payloads :=
  ⟨ready_sound, ⟨rfl, rfl⟩, rfl, rfl, State.inClean_of_whole ready_whole, State.hostSends_of_whole rfl ready_whole⟩

theorem test_witness_retiled : (readyRetiled.Sound ∧ readyRetiled.atIdle ∧ readyRetiled.sched = []
      ∧ readyRetiled.cfg.outCap = none ∧ readyRetiled.InClean payloads ∧ readyRetiled.HostSends payloads)
    ∧ readyRetiled.cfg.toParams
      = { ready.cfg.toParams with tiling := readyRetiled.cfg.tiling, lanes := readyRetiled.cfg.lanes } :=
  ⟨⟨readyRetiled_sound, ⟨rfl, rfl⟩, rfl, rfl, State.inClean_of_whole readyRetiled_whole,
    State.hostSends_of_whole rfl readyRetiled_whole⟩, by decide⟩

/-- P1's kernel launched on a channel for one output packet that an earlier packet still fills: the last input packet comes while
LDIN waits for it, and the channel is drained while STOUT waits for room. `DONE` is reached after 16 steps. -/
def launched : State :=
  { inPhase cfgTight .idle (streamD.take 3) with
    startReq := true, icnt := 99, outCh := [pkt 3#64]
    sched := List.replicate 5 .kernel ++ [.host (.send (pkt 0x0101010101010101#64))] ++ List.replicate 8 .kernel
      ++ [.host .recv] }

theorem launched_sound : launched.Sound where
  memWf := by decide
  capacity := by
    rintro n ⟨⟩
    decide
  startIdle := by decide
  ackDone := by decide
  ids := by decide

theorem launched_done : after (Host.Core.run core 16 launched) (fun u => u.phase = .done) = true := by decide

theorem launched_hostSends : launched.HostSends payloadsD where
  each := by decide
  nothingElse n t _ := by
    have h : ∀ l ∈ (List.range 16).map fun k => (launched.inCh ++ sentBy launched.cfg (launched.sched.take k)).length,
        l ≤ launched.cfg.isSize := by decide
    by_cases hn : n + 1 < 16
    · exact h _ (List.mem_map.2 ⟨n + 1, by simpa using hn, rfl⟩)
    · rw [List.take_of_length_le (Nat.le_trans (by decide : launched.sched.length ≤ 15) (by omega))]
      decide

theorem launched_drains : launched.HostDrains :=
  .inr fun _ _ hu hp hr => by
    have h := of_underway (p := fun t => t.phase != .storeTile || t.hasRoom || t.sched.contains (.host .recv))
      launched_done (by decide) hu
    simpa [hp, hr] using h

theorem launched_noEarlyStart : launched.NoEarlyStart := fun _ t _ hu hs => by
  have h := of_underway (p := fun t => t.sched.head? != some (.host .start)) launched_done (by decide) hu
  simp [hs] at h

theorem launched_fair : launched.Fair := fun _ t _ hu hi =>
  ⟨0, t, by simp, rfl, fun m rest hs => by
    have h := of_underway
      (p := fun t => t.enabledOp.isNone || (match t.sched with | .host _ :: _ => false | _ => true)) launched_done
      (by decide) hu
    simp [hs, hi] at h, hi⟩

theorem test_witness_launch : launched.Sound ∧ launched.Launch payloadsD ∧ launched.cfg.outCap = some 1 :=
  ⟨launched_sound, ⟨⟨rfl, rfl⟩, by unfold State.InClean; decide, launched_hostSends, launched_drains, launched_noEarlyStart,
    launched_fair⟩, rfl⟩

theorem test_witness_fair : launched.Underway 0 launched ∧ launched.enabledOp = some .start :=
  ⟨⟨rfl, fun m hm u hu => by
    obtain rfl := Nat.le_zero.1 hm
    cases hu
    decide⟩, by decide⟩

/-- The same kernel with the last input packet never sent: a premise fails (R189). -/
def starved : State := { launched with sched := [.kernel, .host .recv] }

theorem starved_sound : starved.Sound := { launched_sound with }

theorem starved_feeds : starved.Feeds payloadsD 0 := by
  intro m p h _
  have hp : starved.pending = (streamD.take 3).map pkt := by decide
  rw [hp] at h
  rcases m with _ | _ | _ | m <;> simp [streamD, pkt] at h <;> subst h <;> rfl

theorem test_witness_short : starved.Sound ∧ starved.atIdle ∧ starved.Feeds payloadsD 0
    ∧ starved.pending.length < starved.cfg.isSize ∧ ∃ t, Host.Core.run core 1 starved = .next t :=
  ⟨starved_sound, ⟨rfl, rfl⟩, starved_feeds, by decide, _, rfl⟩

theorem test_witness_gone_wrong : starved.Sound ∧ ¬ starved.Launch payloadsD :=
  ⟨starved_sound, fun h => absurd (h.hostSends.each 3 (by decide)) (by decide)⟩

/-- With class 0 the element is not the tile's last, with class 1 it is. -/
theorem test_witness_dot : ∀ j ∈ [0, 1],
    let s := { compute .init with j := j }
    s.phase = .computeTile ∧ s.cs = .init ∧ s.sched = [] ∧ s.i < s.cfg.tiling ∧ s.j < s.cfg.classes
      ∧ (s.j + 1 < s.cfg.classes ∨ s.i + 1 < s.cfg.tiling ↔ j = 0) := by decide

theorem test_witness_compute_tile : (compute .init).phase = .computeTile ∧ (compute .init).cs = .init
    ∧ (compute .init).sched = [] ∧ (compute .init).i = 0 ∧ (compute .init).j = 0 := by decide

theorem test_witness_arithmetic : cfgA.lanes = 32 ∧ [(1 : Int), -2, 3] ≠ [] ∧ 8 ≤ 32
    ∧ (Params.decided 2 8 3 1).cfgchk ≠ none ∧ 0 < cfgC.feat ∧ 39 < cfgC.feat := by decide

theorem test_witness_acc_fits : cfgC.accFits := by unfold Config.accFits; decide

theorem test_witness_acc_in_range :
    -2147483648 ≤ sval 5#32 + ∑ k ∈ Finset.range cfgC.feat, prod ((fun _ => 1#8) k) ((fun _ => 1#8) k)
      ∧ sval 5#32 + ∑ k ∈ Finset.range cfgC.feat, prod ((fun _ => 1#8) k) ((fun _ => 1#8) k) < 2147483648 := by decide

end Sys2Proof.Tests
end

/-! # Proofs: the scope of the model (00_scope.md) -/

namespace Sys2Proof

/-! ### The derived constants (R11-R13) -/

section
variable (c : Config) (n : Nat)

/-- `n` rows of `FEAT` elements, eight to a packet (R9, R11). -/
theorem Config.mul_feat_div : n * c.feat / 8 = n * c.fpp := by
  rw [c.feat_eq, Nat.mul_left_comm, Nat.mul_div_cancel_left _ (by decide)]

/-- `n` rows of `CLASSES` elements, two to a packet (R9, R11). -/
theorem Config.mul_classes_div : n * c.classes / 2 = n * c.cpp := by
  rw [c.classes_eq, Nat.mul_left_comm, Nat.mul_div_cancel_left _ (by decide)]

theorem Config.isSize_eq : c.isSize = c.offPkts + c.wgtPkts + c.nt * c.tileInPkts := by
  have hrows : c.batch * c.feat / 8 = c.nt * c.tileInPkts := by
    rw [c.mul_feat_div, c.batch_eq, Nat.mul_assoc, Config.tileInPkts]
  rw [Config.isSize, c.mul_feat_div, hrows, Config.offPkts, Config.cpp, Config.wgtPkts]

theorem Config.osSize_eq : c.osSize = c.nt * c.tileOutPkts := by
  rw [Config.osSize, c.mul_classes_div, c.batch_eq, Nat.mul_assoc, Config.tileOutPkts]

/-- No smaller number of groups reaches `FEAT` (R13). -/
theorem Config.pred_ng_lanes_lt_feat : (c.ng - 1) * c.lanes < c.feat :=
  c.group_lt_feat (Nat.sub_one_lt_of_lt c.ng_pos)

/-- The accumulator-fit obligation at the decided widths: 255 * 128 for each product, against 2^31 (R9, R12). -/
theorem Config.accFits_iff : c.accFits ↔ c.feat * 255 * 128 ≤ 2147483648 := by
  obtain ⟨-, -, -, ⟨-, -, hwgt, hin, hout⟩, -⟩ := c.checked
  simp [Config.accFits, hwgt, hin, hout]

end

/-- Settles O53, from what `CFGCHK` gives every configuration. -/
theorem streamSizesAddUp : Obligations.StreamSizesAddUp := fun c =>
  ⟨c.isSize_eq, c.osSize_eq, c.batch_eq.symm, c.classes_eq.symm, c.feat_eq.symm, c.pred_ng_lanes_lt_feat,
    c.feat_le_ng_lanes, c.ng_pos⟩

/-- Settles O50: the bound alone gives `FEAT ≤ 65793`, and `FEAT` is a multiple of 8. -/
theorem accFitsBound : Obligations.AccFitsBound := by
  intro c
  have hfeat := c.feat_eq
  rw [c.accFits_iff]
  omega

end Sys2Proof

namespace Sys2Proof.Machine

open Sys2Proof

section
variable {s : State} {i : Instr}

/-! ### Operations that are not enabled (R21, R104) -/

/-- The enabled operation is the one the selector picks, under its extra condition (R21, R104). -/
theorem State.enabledOp_eq_some_iff : s.enabledOp = some i ↔ s.fetch = .ok i ∧ s.condition i = true := by
  unfold State.enabledOp
  cases s.fetch with
  | error e => simp
  | ok j => by_cases hj : j = i <;> simp [hj]

/-- An operation that pops changes nothing while the input channel is empty, whatever its phase (R121). -/
theorem ite_popping_of_inCh_nil {p : Prop} [Decidable p] {k : Packet → State → Result} (h : s.inCh = []) :
    (if p then s.popping k else .next s) = .next s := by
  rw [State.popping_nil h, ite_self]

/-- An operation the selector does not pick changes nothing. -/
theorem exec_of_fetch_ne (h : s.fetch ≠ .ok i) : exec i s = .next s := by
  cases i with
  | start => exact if_neg fun hc => h (by rw [State.fetch_eq, hc.1])
  | ldoff => exact if_neg fun hc => h (by rw [State.fetch_eq, hc])
  | ldwgt => exact if_neg fun hc => h (by rw [State.fetch_eq, hc])
  | ldin => exact if_neg fun hc => h (by rw [State.fetch_eq, hc])
  | accinit => exact if_neg fun hc => h (by rw [State.fetch_eq, hc.1, hc.2])
  | mac => exact if_neg fun hc => h (by rw [State.fetch_eq, hc.1, hc.2])
  | accwb => exact if_neg fun hc => h (by rw [State.fetch_eq, hc.1, hc.2])
  | stout => exact if_neg fun hc => h (by rw [State.fetch_eq, hc.1])
  | ack => exact if_neg fun hc => h (by rw [State.fetch_eq, hc.1])

/-- An operation whose extra condition fails changes nothing. -/
theorem exec_of_not_condition (h : ¬ s.condition i = true) : exec i s = .next s := by
  have inCh_nil (he : ¬ (!s.inCh.isEmpty) = true) : s.inCh = [] := by simpa using he
  cases i with
  | start | stout | ack => exact if_neg fun hc => h hc.2
  | ldoff | ldwgt | ldin => exact ite_popping_of_inCh_nil (inCh_nil h)
  | accinit | mac | accwb => exact absurd rfl h

/-! ### The kernel's turn (R6, R104) -/

/-- With no move of the environment at the head of the schedule it is the kernel's turn (log 6). -/
theorem State.takeTurn_of_not_host (h : ∀ m rest, s.sched ≠ .host m :: rest) :
    s.takeTurn = (none, { s with sched := s.sched.tail }) := by
  rcases hturn : s.takeTurn with ⟨_ | m, s'⟩
  · rw [State.takeTurn_none hturn]
  · exact absurd (State.takeTurn_some hturn).1 (h m s'.sched)

end

/-- Settles O22: the selector does not pick the operation, or its extra condition fails. -/
theorem disabledOperationChangesNothing : Obligations.DisabledOperationChangesNothing := by
  intro s i h
  rw [Ne, State.enabledOp_eq_some_iff] at h
  by_cases hf : s.fetch = .ok i
  · exact exec_of_not_condition fun hc => h ⟨hf, hc⟩
  · exact exec_of_fetch_ne hf

/-- Settles O8: taking the turn off the schedule leaves the selector as it is. -/
theorem stepRunsSelectedOperation : Obligations.StepRunsSelectedOperation := by
  intro s i hturn hsel
  have hfetch : { s with sched := s.sched.tail }.fetch = .ok i := hsel
  simp only [step, State.takeTurn_of_not_host hturn, hfetch]

end Sys2Proof.Machine

/-! # Proofs: the state and its invariant (10_state.md) -/

namespace Sys2Proof

/-! ### No phase of a run is empty (R10, R11) -/

section
variable (c : Config)

theorem Config.classes_pos : 0 < c.classes := Nat.lt_of_lt_of_le Nat.two_pos c.checked.1.1

theorem Config.wgtPkts_pos : 0 < c.wgtPkts := Nat.mul_pos c.classes_pos c.fpp_pos

theorem Config.tileInPkts_pos : 0 < c.tileInPkts := Nat.mul_pos c.tiling_pos c.fpp_pos

theorem Config.tileOutPkts_pos : 0 < c.tileOutPkts := Nat.mul_pos c.tiling_pos c.cpp_pos

end

end Sys2Proof

namespace Sys2Proof.Machine

open Sys2Proof

section
variable {s t : State} {p : Packet}

/-- What holds of the state with the count moved on, and of the state at the end of the phase, holds after a packet (R34). -/
theorem State.countPacket_intro {P : State → Prop} {total : Nat} {atEnd : State}
    (more : s.cnt + 1 < total → P { s with cnt := s.cnt + 1 }) (last : total ≤ s.cnt + 1 → P atEnd) :
    P (s.countPacket total atEnd) := by
  unfold State.countPacket
  split
  · exact more ‹_›
  · exact last (Nat.le_of_not_lt ‹_›)

/-- A predicate that does not look at the schedule holds after a step if every move and every operation keeps it (R179). -/
theorem step_preserves {P : State → Prop} (sched : ∀ (u : State) (l : List Turn), P u → P { u with sched := l })
    (move : ∀ (u : State) (m : HostMove), P u → P (u.hostMove m))
    (op : ∀ (i : Instr) (u v : State), P u → exec i u = .next v → P v) (h : P s) (ht : step s = .next t) : P t := by
  rcases step_next ht with ⟨m, rest, -, rfl⟩ | ⟨s', rfl, ⟨i, -, he⟩ | ⟨-, rfl⟩⟩
  · exact move _ m (sched s rest h)
  · exact op i _ t (sched s _ h) he
  · exact sched s _ h

/-! ### Sound storage

Every step keeps sound storage, whatever the counters hold: an access that goes on is to elements that exist. -/

/-- Everything `State.Sound` speaks of, the phase excepted. -/
def State.storage (s : State) : Config × Memory × List Packet × List Packet × List Packet × Bool × Bool :=
  (s.cfg, s.mem, s.inCh, s.outCh, s.received, s.startReq, s.ackReq)

/-- Between `IDLE` and `DONE` no event is raised, so the phase and the counters may become anything. -/
theorem State.Sound.of_storage_eq (h : s.Sound) (hidle : s.phase ≠ .idle) (hdone : s.phase ≠ .done)
    (he : t.storage = s.storage) : t.Sound := by
  simp only [State.storage, Prod.mk.injEq] at he
  obtain ⟨hcfg, hmem, hin, hout, hrec, hstart, hack⟩ := he
  exact {
    memWf := by rw [hcfg, hmem]; exact h.memWf
    capacity := by rw [hcfg, hout]; exact h.capacity
    startIdle := fun hs => absurd (h.startIdle (hstart ▸ hs)) hidle
    ackDone := fun ha => absurd (h.ackDone (hack ▸ ha)) hdone
    ids := by rw [hcfg, hin, hout, hrec]; exact h.ids }

/-- A packet counted leaves storage as the end of the phase does. -/
theorem State.countPacket_storage {total : Nat} {atEnd : State} (h : atEnd.storage = s.storage) :
    (s.countPacket total atEnd).storage = s.storage :=
  State.countPacket_intro (P := fun u => u.storage = s.storage) (fun _ => rfl) (fun _ => h)

theorem State.Sound.popped {rest : List Packet} (h : s.Sound) (hc : s.inCh = p :: rest) :
    { s with inCh := rest, icnt := s.icnt + 1 }.Sound :=
  { h with
    ids := fun q hq => h.ids q (by
      rw [hc]
      exact List.mem_cons_of_mem p hq) }

theorem State.Sound.writeOff {j : Nat} {vs : List Wide} (h : s.Sound)
    (hb : bufHolds s.cfg .off 0 j vs.length = true) : (s.writeOff j vs).Sound :=
  { h with memWf := State.writeOff_wf h.memWf hb }

theorem State.Sound.writeWgt {j k : Nat} {vs : List Narrow} (h : s.Sound)
    (hb : bufHolds s.cfg .wgt j k vs.length = true) : (s.writeWgt j k vs).Sound :=
  { h with memWf := State.writeWgt_wf h.memWf hb }

theorem State.Sound.writeInp {i k : Nat} {vs : List Narrow} (h : s.Sound)
    (hb : bufHolds s.cfg .inp i k vs.length = true) : (s.writeInp i k vs).Sound :=
  { h with memWf := State.writeInp_wf h.memWf hb }

theorem State.Sound.writeOut {i j : Nat} {v : Wide} (h : s.Sound)
    (hb : bufHolds s.cfg .out i j 1 = true) : (s.writeOut i j v).Sound :=
  { h with memWf := State.writeOut_wf h.memWf hb }

/-- A push into a channel with room keeps the capacity (R72, R157). -/
theorem State.Sound.pushed (h : s.Sound) (hroom : s.hasRoom = true) (hid : p.id < 2 ^ s.cfg.idW) :
    (s.pushed p).Sound :=
  { h with
    capacity := fun n hn => by
      simpa using State.hasRoom_iff.1 hroom n hn
    ids := fun q hq => by
      simp only [State.pushed_inCh, State.pushed_outCh, State.pushed_received, List.mem_append,
        List.mem_singleton] at hq
      rcases hq with (hq | hq | rfl) | hq
      · exact h.ids q (by simp [hq])
      · exact h.ids q (by simp [hq])
      · exact hid
      · exact h.ids q (by simp [hq]) }

/-- A move of the environment keeps storage sound: an event is raised only in the phase that takes it (R193), and a packet
sent has an id of `ID_W` bits (R90). -/
theorem State.Sound.hostMove (h : s.Sound) (m : HostMove) : (s.hostMove m).Sound := by
  rcases s.hostMove_cases m with he | ⟨p, -, he⟩ | ⟨p, rest, -, hout, he⟩ | ⟨-, hph, he⟩ | ⟨-, hph, he⟩
  · rwa [he]
  · rw [he]
    exact { h with
      ids := fun q hq => by
        simp only [List.mem_append, List.mem_singleton] at hq
        rcases hq with ((hq | rfl) | hq) | hq
        · exact h.ids q (by simp [hq])
        · exact Packet.carried_id_lt s.cfg p
        · exact h.ids q (by simp [hq])
        · exact h.ids q (by simp [hq]) }
  · rw [he]
    exact { h with
      capacity := fun n hn => by
        have hlen := h.capacity n hn
        rw [hout] at hlen
        exact Nat.le_of_succ_le hlen
      ids := fun q hq => h.ids q (by
        simp only [hout, List.mem_append, List.mem_cons, List.not_mem_nil, or_false] at hq ⊢
        tauto) }
  · rw [he]
    exact { h with startIdle := fun _ => hph }
  · rw [he]
    exact { h with ackDone := fun _ => hph }

/-- Every operation keeps sound storage. -/
theorem State.Sound.exec {i : Instr} (h : s.Sound) (he : exec i s = .next t) : t.Sound := by
  cases i with
  | start =>
    rcases execStart_next he with rfl | ⟨hph, -, rfl⟩
    · exact h
    · exact { h with startIdle := nofun, ackDone := fun ha => absurd (hph.symm.trans (h.ackDone ha)) nofun }
  | ldoff =>
    rcases execLdoff_next he with rfl | ⟨p, rest, s', hph, hc, hb, rfl, rfl⟩
    · exact h
    · exact ((h.popped hc).writeOff hb).of_storage_eq (by simp [hph]) (by simp [hph])
        (State.countPacket_storage rfl)
  | ldwgt =>
    rcases execLdwgt_next he with rfl | ⟨p, rest, s', hph, hc, hb, rfl, rfl⟩
    · exact h
    · exact ((h.popped hc).writeWgt hb).of_storage_eq (by simp [hph]) (by simp [hph])
        (State.countPacket_storage rfl)
  | ldin =>
    rcases execLdin_next he with rfl | ⟨p, rest, s', hph, hc, hb, rfl, rfl⟩
    · exact h
    · exact ((h.popped hc).writeInp hb).of_storage_eq (by simp [hph]) (by simp [hph])
        (State.countPacket_storage rfl)
  | accinit =>
    rcases execAccinit_next he with rfl | ⟨hph, -, -, rfl⟩
    · exact h
    · exact h.of_storage_eq (by simp [hph]) (by simp [hph]) rfl
  | mac =>
    rcases execMac_next he with rfl | ⟨s', hph, -, -, -, rfl, rfl⟩
    · exact h
    · exact h.of_storage_eq (by simp [hph]) (by simp [hph]) (by split <;> rfl)
  | accwb =>
    rcases execAccwb_next he with rfl | ⟨s', hph, -, hb, rfl, rfl⟩
    · exact h
    · refine (h.writeOut (v := s.acc) hb).of_storage_eq (by simp [hph]) (by simp [hph]) ?_
      split
      · rfl
      · split <;> rfl
  | stout =>
    rcases execStout_next he with rfl | ⟨s', hph, hroom, -, rfl, rfl⟩
    · exact h
    · exact (h.pushed hroom s.cfg.checked.2.2.2.2.2).of_storage_eq (by simp [hph]) (by simp [hph])
        (State.countPacket_storage (by split <;> rfl))
  | ack =>
    rcases execAck_next he with rfl | ⟨hph, -, rfl⟩
    · exact h
    · exact { h with startIdle := fun _ => rfl, ackDone := nofun }

/-- Every step, on the kernel's turn or the environment's, keeps sound storage. -/
theorem State.Sound.step (h : s.Sound) (ht : step s = .next t) : t.Sound :=
  step_preserves (fun _ _ h => { h with }) (fun _ m h => h.hostMove m) (fun _ _ _ h he => h.exec he) h ht

/-! ### The counters (R55)

An operation that stays in its phase is closed by `Iff.mpr` of the phase's lemma: the state is then read off the goal, and is
the next state, not the one before. -/

/-- What the invariant of reachable states says beyond sound storage: the counters of the phase and the tile index. -/
structure State.CountersInv (s : State) : Prop where
  phaseInv : s.PhaseInv
  tile : s.t < s.cfg.nt

theorem State.inv_iff : s.Inv ↔ s.Sound ∧ s.CountersInv :=
  ⟨fun h => ⟨h.toSound, h.phaseInv, h.tile⟩, fun ⟨hs, hc⟩ => ⟨hs, hc.phaseInv, hc.tile⟩⟩

theorem execStart_counters (h : s.CountersInv) (he : execStart s = .next t) : t.CountersInv := by
  rcases execStart_next he with rfl | ⟨-, -, rfl⟩
  · exact h
  · exact ⟨(State.phaseInv_loadOffsets rfl).2 ⟨rfl, s.cfg.cpp_pos, rfl, rfl, rfl⟩, s.cfg.nt_pos⟩

theorem execLdoff_counters (h : s.CountersInv) (he : execLdoff s = .next t) : t.CountersInv := by
  rcases execLdoff_next he with rfl | ⟨p, rest, s', hph, -, -, rfl, rfl⟩
  · exact h
  obtain ⟨hcs, hcnt, ht, hicnt, hocnt⟩ := (State.phaseInv_loadOffsets hph).1 h.phaseInv
  refine State.countPacket_intro (fun hlt => ⟨?_, h.tile⟩) (fun (hle : s.cfg.offPkts ≤ s.cnt + 1) => ⟨?_, h.tile⟩)
  · exact Iff.mpr (State.phaseInv_loadOffsets hph) ⟨hcs, hlt, ht, congrArg (· + 1) hicnt, hocnt⟩
  · have hpopped : s.icnt + 1 = s.cfg.offPkts + 0 := by omega
    exact (State.phaseInv_loadWeights rfl).2 ⟨hcs, s.cfg.wgtPkts_pos, ht, hpopped, hocnt⟩

theorem execLdwgt_counters (h : s.CountersInv) (he : execLdwgt s = .next t) : t.CountersInv := by
  rcases execLdwgt_next he with rfl | ⟨p, rest, s', hph, -, -, rfl, rfl⟩
  · exact h
  obtain ⟨hcs, hcnt, ht, hicnt, hocnt⟩ := (State.phaseInv_loadWeights hph).1 h.phaseInv
  refine State.countPacket_intro (fun hlt => ⟨?_, h.tile⟩) (fun (hle : s.cfg.wgtPkts ≤ s.cnt + 1) => ⟨?_, h.tile⟩)
  · exact Iff.mpr (State.phaseInv_loadWeights hph) ⟨hcs, hlt, ht, congrArg (· + 1) hicnt, hocnt⟩
  · have hpopped : s.icnt + 1 = s.cfg.offPkts + s.cfg.wgtPkts + s.t * s.cfg.tileInPkts + 0 := by
      rw [ht, Nat.zero_mul]
      omega
    have hpushed : s.ocnt = s.t * s.cfg.tileOutPkts := by rw [ht, Nat.zero_mul, hocnt]
    exact (State.phaseInv_loadTile rfl).2 ⟨hcs, s.cfg.tileInPkts_pos, hpopped, hpushed⟩

theorem execLdin_counters (h : s.CountersInv) (he : execLdin s = .next t) : t.CountersInv := by
  rcases execLdin_next he with rfl | ⟨p, rest, s', hph, -, -, rfl, rfl⟩
  · exact h
  obtain ⟨hcs, hcnt, hicnt, hocnt⟩ := (State.phaseInv_loadTile hph).1 h.phaseInv
  refine State.countPacket_intro (fun hlt => ⟨?_, h.tile⟩) (fun (hle : s.cfg.tileInPkts ≤ s.cnt + 1) => ⟨?_, h.tile⟩)
  · exact Iff.mpr (State.phaseInv_loadTile hph) ⟨hcs, hlt, congrArg (· + 1) hicnt, hocnt⟩
  · have hpopped : s.icnt + 1 = s.cfg.offPkts + s.cfg.wgtPkts + (s.t + 1) * s.cfg.tileInPkts := by
      rw [Nat.succ_mul]
      omega
    exact (State.phaseInv_computeTile rfl).2 ⟨nofun, s.cfg.tiling_pos, s.cfg.classes_pos, nofun, hpopped, hocnt⟩

theorem execAccinit_counters (h : s.CountersInv) (he : execAccinit s = .next t) : t.CountersInv := by
  rcases execAccinit_next he with rfl | ⟨hph, -, -, rfl⟩
  · exact h
  obtain ⟨-, hi, hj, -, hcounts⟩ := (State.phaseInv_computeTile hph).1 h.phaseInv
  exact ⟨Iff.mpr (State.phaseInv_computeTile hph) ⟨nofun, hi, hj, fun _ => s.cfg.ng_pos, hcounts⟩, h.tile⟩

theorem execMac_counters (h : s.CountersInv) (he : execMac s = .next t) : t.CountersInv := by
  rcases execMac_next he with rfl | ⟨s', hph, -, -, -, rfl, rfl⟩
  · exact h
  obtain ⟨hcs, hi, hj, -, hcounts⟩ := (State.phaseInv_computeTile hph).1 h.phaseInv
  split
  next hg => exact ⟨Iff.mpr (State.phaseInv_computeTile hph) ⟨hcs, hi, hj, fun _ => hg, hcounts⟩, h.tile⟩
  next => exact ⟨Iff.mpr (State.phaseInv_computeTile hph) ⟨nofun, hi, hj, nofun, hcounts⟩, h.tile⟩

theorem execAccwb_counters (h : s.CountersInv) (he : execAccwb s = .next t) : t.CountersInv := by
  rcases execAccwb_next he with rfl | ⟨s', hph, -, -, rfl, rfl⟩
  · exact h
  obtain ⟨-, hi, -, -, hicnt, hocnt⟩ := (State.phaseInv_computeTile hph).1 h.phaseInv
  split
  next hj => exact ⟨Iff.mpr (State.phaseInv_computeTile hph) ⟨nofun, hi, hj, nofun, hicnt, hocnt⟩, h.tile⟩
  next =>
    split
    next hi' =>
      exact ⟨Iff.mpr (State.phaseInv_computeTile hph) ⟨nofun, hi', s.cfg.classes_pos, nofun, hicnt, hocnt⟩, h.tile⟩
    next => exact ⟨(State.phaseInv_storeTile rfl).2 ⟨rfl, s.cfg.tileOutPkts_pos, hicnt, hocnt⟩, h.tile⟩

theorem execStout_counters (h : s.CountersInv) (he : execStout s = .next t) : t.CountersInv := by
  rcases execStout_next he with rfl | ⟨s', hph, -, -, rfl, rfl⟩
  · exact h
  obtain ⟨hcs, hcnt, hicnt, hocnt⟩ := (State.phaseInv_storeTile hph).1 h.phaseInv
  refine State.countPacket_intro (fun hlt => ⟨?_, h.tile⟩) (fun (hle : s.cfg.tileOutPkts ≤ s.cnt + 1) => ?_)
  · exact Iff.mpr (State.phaseInv_storeTile hph) ⟨hcs, hlt, hicnt, congrArg (· + 1) hocnt⟩
  · have hpushed : s.ocnt + 1 = (s.t + 1) * s.cfg.tileOutPkts := by
      rw [Nat.succ_mul]
      omega
    split
    next ht => exact ⟨(State.phaseInv_loadTile rfl).2 ⟨hcs, s.cfg.tileInPkts_pos, hicnt, hpushed⟩, ht⟩
    next ht =>
      have hlast : s.t + 1 = s.cfg.nt := Nat.le_antisymm h.tile (Nat.le_of_not_lt ht)
      rw [hlast] at hicnt hpushed
      exact ⟨(State.phaseInv_done rfl).2
        ⟨hcs, hicnt.trans s.cfg.isSize_eq.symm, hpushed.trans s.cfg.osSize_eq.symm⟩, h.tile⟩

theorem execAck_counters (h : s.CountersInv) (he : execAck s = .next t) : t.CountersInv := by
  rcases execAck_next he with rfl | ⟨hph, -, rfl⟩
  · exact h
  obtain ⟨hcs, hicnt, hocnt⟩ := (State.phaseInv_done hph).1 h.phaseInv
  exact ⟨(State.phaseInv_idle rfl).2 ⟨hcs, hicnt.le, hocnt.le⟩, h.tile⟩

/-- Every operation keeps the counters in the range of their phase. -/
theorem State.CountersInv.exec {i : Instr} (h : s.CountersInv) (he : exec i s = .next t) : t.CountersInv := by
  cases i with
  | start => exact execStart_counters h he
  | ldoff => exact execLdoff_counters h he
  | ldwgt => exact execLdwgt_counters h he
  | ldin => exact execLdin_counters h he
  | accinit => exact execAccinit_counters h he
  | mac => exact execMac_counters h he
  | accwb => exact execAccwb_counters h he
  | stout => exact execStout_counters h he
  | ack => exact execAck_counters h he

/-- No move of the environment touches a counter (R179). -/
theorem State.CountersInv.hostMove (h : s.CountersInv) (m : HostMove) : (s.hostMove m).CountersInv := by
  rcases s.hostMove_cases m with he | ⟨_, -, he⟩ | ⟨_, _, -, -, he⟩ | ⟨-, -, he⟩ | ⟨-, -, he⟩ <;> rw [he] <;>
    exact ⟨h.phaseInv, h.tile⟩

/-- Every step, on the kernel's turn or the environment's, keeps the counters in the range of their phase. -/
theorem State.CountersInv.step (h : s.CountersInv) (ht : step s = .next t) : t.CountersInv :=
  step_preserves (fun _ _ h => ⟨h.phaseInv, h.tile⟩) (fun _ m h => h.hostMove m) (fun _ _ _ h he => h.exec he) h ht

/-! ### Reset (R211) -/

/-- In `IDLE` with no `start` raised no operation is enabled (R104). -/
theorem State.enabledOp_idle (hph : s.phase = .idle) (hstart : s.startReq = false) : s.enabledOp = none := by
  simp [State.enabledOp, State.fetch_eq, hph, State.condition, hstart]

theorem afterReset_inv {c : Config} (h : AfterReset c s) : s.Inv := by
  obtain ⟨acc, sched, rfl⟩ := h
  exact {
    memWf := State.resetWith_wf c
    capacity := fun n _ => Nat.zero_le n
    startIdle := nofun
    ackDone := nofun
    ids := nofun
    phaseInv := (State.phaseInv_idle rfl).2 ⟨rfl, Nat.zero_le _, Nat.zero_le _⟩
    tile := c.nt_pos }

theorem reset_afterReset : AfterReset exampleConfig State.reset := ⟨0#32, [], rfl⟩

end

/-- Settles O29: a step keeps sound storage, and it keeps the counters in the range of their phase. -/
theorem stepKeepsInvariant : Obligations.StepKeepsInvariant := by
  intro s t h ht
  rw [State.inv_iff] at h ⊢
  exact ⟨h.1.step ht, h.2.step ht⟩

/-- Settles O7: after reset everything counted is 0, and nothing is stored, queued or raised. -/
theorem resetMeetsInvariant : Obligations.ResetMeetsInvariant := by
  refine ⟨fun c s h => ⟨afterReset_inv h, ?_⟩, reset_afterReset, afterReset_inv reset_afterReset⟩
  obtain ⟨acc, sched, rfl⟩ := h
  exact ⟨rfl, rfl, State.enabledOp_idle rfl rfl⟩

end Sys2Proof.Machine

/-! # Proofs: the buffers and who writes them (20_memory.md) -/

namespace Sys2Proof.Machine

open Sys2Proof

section
variable {s t u : State} {i : Instr}

/-! ### What an operation writes (R33, R37-R45, R60) -/

/-- `t` is `u` at another place of the sequencer: `phase`, `cnt`, `i`, `j`, `g` and `cs` are free, everything else is that
of `u`. -/
def State.Moves (u t : State) : Prop :=
  t = { u with phase := t.phase, cnt := t.cnt, i := t.i, j := t.j, g := t.g, cs := t.cs }

/-- Counting a packet only moves the sequencer if the end of the phase does. -/
theorem State.Moves.countPacket {total : Nat} {atEnd : State} (h : u.Moves atEnd) :
    u.Moves (u.countPacket total atEnd) :=
  State.countPacket_intro (fun _ => rfl) (fun _ => h)

/-- What an operation that completes from `s` writes outside the sequencer: nothing when it is not enabled, and else what its
row of the list says, to elements that exist. -/
inductive State.Writes (s : State) : Instr → State → Prop where
  | nothing (i : Instr) : s.Writes i s
  | start : s.Writes .start { s with t := 0, icnt := 0, ocnt := 0, startReq := false }
  | ldoff (p : Packet) (rest : List Packet) (j : Nat) (vs : List Wide) (hc : s.inCh = p :: rest)
      (hb : bufHolds s.cfg .off 0 j vs.length = true) :
      s.Writes .ldoff ({ s with inCh := rest, icnt := s.icnt + 1 }.writeOff j vs)
  | ldwgt (p : Packet) (rest : List Packet) (j k : Nat) (vs : List Narrow) (hc : s.inCh = p :: rest)
      (hb : bufHolds s.cfg .wgt j k vs.length = true) :
      s.Writes .ldwgt ({ s with inCh := rest, icnt := s.icnt + 1 }.writeWgt j k vs)
  | ldin (p : Packet) (rest : List Packet) (i k : Nat) (vs : List Narrow) (hc : s.inCh = p :: rest)
      (hb : bufHolds s.cfg .inp i k vs.length = true) :
      s.Writes .ldin ({ s with inCh := rest, icnt := s.icnt + 1 }.writeInp i k vs)
  | accinit : s.Writes .accinit { s with acc := accLoad (s.offAt s.j) }
  | mac : s.Writes .mac { s with acc := accAdd s.acc (gsum s.cfg (s.inpAt s.i) (s.wgtAt s.j) s.g) }
  | accwb (hb : bufHolds s.cfg .out s.i s.j 1 = true) : s.Writes .accwb (s.writeOut s.i s.j s.acc)
  | stout (p : Packet) (tile : Nat) : s.Writes .stout { s.pushed p with t := tile }
  | ack : s.Writes .ack { s with ackReq := false }

/-- Every operation that answers a next state writes what its row says, and moves the sequencer. -/
theorem exec_writes (h : exec i s = .next t) : ∃ u, s.Writes i u ∧ u.Moves t := by
  cases i with
  | start =>
    rcases execStart_next h with rfl | ⟨-, -, rfl⟩
    · exact ⟨_, .nothing _, rfl⟩
    · exact ⟨_, .start, rfl⟩
  | ldoff =>
    rcases execLdoff_next h with rfl | ⟨p, rest, s', -, hc, hb, rfl, rfl⟩
    · exact ⟨_, .nothing _, rfl⟩
    · exact ⟨_, .ldoff p rest _ _ hc hb, .countPacket rfl⟩
  | ldwgt =>
    rcases execLdwgt_next h with rfl | ⟨p, rest, s', -, hc, hb, rfl, rfl⟩
    · exact ⟨_, .nothing _, rfl⟩
    · exact ⟨_, .ldwgt p rest _ _ _ hc hb, .countPacket rfl⟩
  | ldin =>
    rcases execLdin_next h with rfl | ⟨p, rest, s', -, hc, hb, rfl, rfl⟩
    · exact ⟨_, .nothing _, rfl⟩
    · exact ⟨_, .ldin p rest _ _ _ hc hb, .countPacket rfl⟩
  | accinit =>
    rcases execAccinit_next h with rfl | ⟨-, -, -, rfl⟩
    · exact ⟨_, .nothing _, rfl⟩
    · exact ⟨_, .accinit, rfl⟩
  | mac =>
    rcases execMac_next h with rfl | ⟨s', -, -, -, -, rfl, rfl⟩
    · exact ⟨_, .nothing _, rfl⟩
    · refine ⟨_, .mac, ?_⟩
      split <;> rfl
  | accwb =>
    rcases execAccwb_next h with rfl | ⟨s', -, -, hb, rfl, rfl⟩
    · exact ⟨_, .nothing _, rfl⟩
    · refine ⟨_, .accwb hb, ?_⟩
      split
      · rfl
      · split <;> rfl
  | stout =>
    rcases execStout_next h with rfl | ⟨s', -, -, -, rfl, rfl⟩
    · exact ⟨_, .nothing _, rfl⟩
    · unfold State.countPacket
      split
      · exact ⟨_, .stout _ s.t, rfl⟩
      · split
        · exact ⟨_, .stout _ (s.t + 1), rfl⟩
        · exact ⟨_, .stout _ s.t, rfl⟩
  | ack =>
    rcases execAck_next h with rfl | ⟨-, -, rfl⟩
    · exact ⟨_, .nothing _, rfl⟩
    · exact ⟨_, .ack, rfl⟩

/-! ### Every step keeps the canonical form (R60, R65) -/

/-- The buffers are in canonical form within the shapes of the configuration `c`, the machine's own. -/
def State.CanonicalFor (c : Config) (s : State) : Prop := s.mem.wf s.cfg ∧ s.cfg = c

theorem State.CanonicalFor.writes {c : Config} (h : s.CanonicalFor c) (hw : s.Writes i u) : u.CanonicalFor c := by
  obtain ⟨hwf, hcfg⟩ := h
  constructor
  · cases hw with
    | ldoff p rest j vs hc hb => exact State.writeOff_wf hwf hb
    | ldwgt p rest j k vs hc hb => exact State.writeWgt_wf hwf hb
    | ldin p rest i k vs hc hb => exact State.writeInp_wf hwf hb
    | accwb hb => exact State.writeOut_wf hwf hb
    | nothing | start | accinit | mac | stout | ack => exact hwf
  · cases hw <;> exact hcfg

theorem State.CanonicalFor.moves {c : Config} (h : u.CanonicalFor c) (hm : u.Moves t) : t.CanonicalFor c := by
  rw [hm]
  exact h

theorem State.CanonicalFor.exec {c : Config} (h : s.CanonicalFor c) (he : exec i s = .next t) : t.CanonicalFor c := by
  obtain ⟨u, hw, hm⟩ := exec_writes he
  exact (h.writes hw).moves hm

/-- No move of the environment touches a buffer (R179). -/
theorem State.CanonicalFor.hostMove {c : Config} (h : s.CanonicalFor c) (m : HostMove) :
    (s.hostMove m).CanonicalFor c := by
  rcases s.hostMove_cases m with he | ⟨_, -, he⟩ | ⟨_, _, -, -, he⟩ | ⟨-, -, he⟩ | ⟨-, -, he⟩ <;> rw [he] <;> exact h

/-! ### Accesses outside the shapes (R60, log 5) -/

variable {c : Config} {b : BufId} {r k n : Nat}

theorem bufHolds_eq_false_of_row (h : bufRows c b ≤ r) : bufHolds c b r k n = false :=
  decide_eq_false fun ⟨hr, _⟩ => Nat.not_lt.2 h hr

theorem bufHolds_eq_false_of_col (h : bufCols c b < k + n) : bufHolds c b r k n = false :=
  decide_eq_false fun ⟨_, hk⟩ => Nat.not_le.2 h hk

/-- A count of at least rows times packets per row stands for a row that does not exist. -/
theorem le_rowOf {rows perRow : Nat} (hpos : 0 < perRow) (h : rows * perRow ≤ n) : rows ≤ rowOf n perRow :=
  (Nat.le_div_iff_mul_le hpos).2 h

/-- A load that finds a packet and no element to write stops (R121, log 5). -/
theorem State.popping_within_fault {res : Packet → State → Result} (hc : s.inCh ≠ [])
    (hb : bufHolds s.cfg b r k n = false) :
    (s.popping fun p s' => s'.within b r k n (res p s')) = .fault (.noElement b r k) := by
  obtain ⟨p, rest, hc⟩ := List.exists_cons_of_ne_nil hc
  rw [State.popping_cons hc]
  exact State.within_of_not_holds hb

/-! ### The banks (R66) -/

/-- A feature of a row lies in one of the groups. -/
theorem Config.div_lanes_lt_ng (h : k < c.feat) : k / c.lanes < c.ng :=
  Nat.div_lt_of_lt_mul (Nat.mul_comm c.ng c.lanes ▸ Nat.lt_of_lt_of_le h c.feat_le_ng_lanes)

/-- The address within a bank determines the row and the group. -/
theorem bankAddr_div_mod (h : k < c.feat) : bankAddr c r k / c.ng = r ∧ bankAddr c r k % c.ng = k / c.lanes :=
  (Nat.div_mod_unique c.ng_pos).2 ⟨by rw [bankAddr, Nat.add_comm, Nat.mul_comm], Config.div_lanes_lt_ng h⟩

/-- The group and the bank determine the feature. -/
theorem feature_eq_of_group_bank {k' : Nat} (hg : k / c.lanes = k' / c.lanes) (hb : bank c k = bank c k') : k = k' := by
  unfold bank at hb
  rw [← Nat.div_add_mod k c.lanes, hg, hb, Nat.div_add_mod]

end

/-- Settles O28: an operation writes only to elements that exist, and nothing else of a step touches a buffer. -/
theorem stepKeepsBuffersCanonical : Obligations.StepKeepsBuffersCanonical := fun s _ h ht =>
  step_preserves (P := State.CanonicalFor s.cfg) (fun _ _ h => h) (fun _ m h => h.hostMove m)
    (fun _ _ _ h he => h.exec he) ⟨h, rfl⟩ ht

/-- Settles O24, from the list of what each operation writes. -/
theorem onlyNamedOperationsWrite : Obligations.OnlyNamedOperationsWrite := by
  intro i s t h
  obtain ⟨u, hw, hm⟩ := exec_writes h
  rw [hm]
  cases hw with
  | nothing | start | ack | accinit | mac | accwb => simp
  | ldoff p rest _ _ hc | ldwgt p rest _ _ _ hc | ldin p rest _ _ _ hc => simpa using ⟨[p], hc, Nat.le_refl 1⟩
  | stout p => simp

/-- Settles O23: a count past its phase stands for a row, or an offset, past the buffer. -/
theorem missingElementFaults : Obligations.MissingElementFaults := by
  intro s
  refine ⟨fun hph hc h => ?_, fun hph hc h => ?_, fun hph hc h => ?_, fun hph hcs h => ?_, fun hph hcs h => ?_,
    fun hph hcs hi h => ?_, fun hph hcs h => ?_, fun hph hroom h => ?_⟩
  · -- LDOFF
    have hcol : s.cfg.classes < 2 * s.cnt + 2 := by
      have := s.cfg.classes_eq
      unfold Config.offPkts at h
      omega
    exact (if_pos hph).trans (State.popping_within_fault hc (bufHolds_eq_false_of_col hcol))
  · -- LDWGT
    exact (if_pos hph).trans
      (State.popping_within_fault hc (bufHolds_eq_false_of_row (le_rowOf s.cfg.fpp_pos h)))
  · -- LDIN
    exact (if_pos hph).trans
      (State.popping_within_fault hc (bufHolds_eq_false_of_row (le_rowOf s.cfg.fpp_pos h)))
  · -- ACCINIT
    exact (if_pos ⟨hph, hcs⟩).trans (State.within_of_not_holds (bufHolds_eq_false_of_col (Nat.lt_succ_of_le h)))
  · -- MAC, past the rows of `in_buf`
    exact (if_pos ⟨hph, hcs⟩).trans (State.within_of_not_holds (bufHolds_eq_false_of_row h))
  · -- MAC, past the rows of `w_buf`
    have hinp : bufHolds s.cfg .inp s.i 0 s.cfg.feat = true := bufHolds_row hi
    exact (if_pos ⟨hph, hcs⟩).trans
      ((State.within_of_holds hinp).trans (State.within_of_not_holds (bufHolds_eq_false_of_row h)))
  · -- ACCWB
    have hout : bufHolds s.cfg .out s.i s.j 1 = false :=
      h.elim (fun hi => bufHolds_eq_false_of_row hi) fun hj => bufHolds_eq_false_of_col (Nat.lt_succ_of_le hj)
    exact (if_pos ⟨hph, hcs⟩).trans (State.within_of_not_holds hout)
  · -- STOUT
    exact (if_pos ⟨hph, hroom⟩).trans
      (State.within_of_not_holds (bufHolds_eq_false_of_row (le_rowOf s.cfg.cpp_pos h)))

/-- Settles O54: bank and group determine the feature, and the address within a bank determines row and group. -/
theorem groupFeaturesLieInDifferentBanks : Obligations.GroupFeaturesLieInDifferentBanks := by
  intro c r r' k k' hk hk'
  refine ⟨feature_eq_of_group_bank, fun hb ha => ?_, Nat.mod_lt k c.lanes_pos⟩
  obtain ⟨hrow, hgroup⟩ := bankAddr_div_mod (r := r) hk
  obtain ⟨hrow', hgroup'⟩ := bankAddr_div_mod (r := r') hk'
  rw [ha] at hrow hgroup
  exact ⟨hrow.symm.trans hrow', feature_eq_of_group_bank (hgroup.symm.trans hgroup') hb⟩

end Sys2Proof.Machine

/-! # Proofs: the selector and the fixed sequence of operations (30_encoding.md) -/

namespace Sys2Proof

section
variable {w : Sel} {i : Instr}

/-! ### The rows of the selector table (R104, R106) -/

/-- The laws of the selector, for whichever operation (R104). -/
theorem selector_statement (i : Instr) : Laws.Selector.Statement i := by
  cases i with
  | start => exact Laws.Selector.start
  | ldoff => exact Laws.Selector.ldoff
  | ldwgt => exact Laws.Selector.ldwgt
  | ldin => exact Laws.Selector.ldin
  | accinit => exact Laws.Selector.accinit
  | mac => exact Laws.Selector.mac
  | accwb => exact Laws.Selector.accwb
  | stout => exact Laws.Selector.stout
  | ack => exact Laws.Selector.ack

/-- The decoder answers exactly the operation whose row the selector falls under. -/
theorem decode_eq_ok_iff : decode w = .ok i ↔ i.selectedBy w = true := by
  obtain ⟨-, hrow, -⟩ := selector_statement i
  rw [Instr.selectedBy, decide_eq_true_iff, ← hrow w]
  cases decode w <;> simp [Except.toOption]

theorem isSome_decode (w : Sel) : (decode w).toOption.isSome = selWellFormed w := by
  revert w
  decide

theorem selWellFormed_iff : selWellFormed w = true ↔ ∃ i : Instr, i.selectedBy w = true := by
  simp only [← decode_eq_ok_iff, ← isSome_decode]
  cases decode w <;> simp [Except.toOption]

end

/-- Settles O1: a table of 32 closed values. -/
theorem selectorTableDecodes : Obligations.SelectorTableDecodes := by
  unfold Obligations.SelectorTableDecodes
  decide

end Sys2Proof

namespace Sys2Proof.Machine

open Sys2Proof

section
variable {s t : State} {i : Instr}

/-! ### The selector of a state (R103-R106) -/

/-- The phase of the operation's row and, in `COMPUTE_TILE`, the sub-step (R104). -/
def State.Selects (s : State) : Instr → Prop
  | .start => s.phase = .idle
  | .ldoff => s.phase = .loadOffsets
  | .ldwgt => s.phase = .loadWeights
  | .ldin => s.phase = .loadTile
  | .accinit => s.phase = .computeTile ∧ s.cs = .init
  | .mac => s.phase = .computeTile ∧ s.cs = .macs
  | .accwb => s.phase = .computeTile ∧ s.cs = .wb
  | .stout => s.phase = .storeTile
  | .ack => s.phase = .done

theorem State.fetch_eq_ok_iff : s.fetch = .ok i ↔ s.Selects i := by
  rw [State.fetch_eq]
  cases hph : s.phase with
  | computeTile => cases hcs : s.cs <;> cases i <;> simp [State.Selects, hph, hcs]
  | _ => cases i <;> simp [State.Selects, hph]

theorem State.enabledOp_eq_some_iff_selects : s.enabledOp = some i ↔ s.Selects i ∧ s.condition i = true := by
  rw [State.enabledOp_eq_some_iff, State.fetch_eq_ok_iff]

/-- Outside `COMPUTE_TILE` the sub-step is not examined (R105). -/
theorem State.fetch_with_cs (cs : SubStep) (h : s.phase ≠ .computeTile) : { s with cs := cs }.fetch = s.fetch := by
  rw [State.fetch_eq, State.fetch_eq]
  cases hph : s.phase with
  | computeTile => exact absurd hph h
  | _ => rfl

theorem State.condition_with_cs (cs : SubStep) : { s with cs := cs }.condition = s.condition := by
  funext i
  cases i <;> rfl

/-! ### Reserved selectors (R106) -/

/-- The state's selector is one of the reserved ones: `111xx` or `10011`. -/
def State.AtReserved (s : State) : Prop := s.phase = .reserved ∨ (s.phase = .computeTile ∧ s.cs = .reserved)

theorem State.AtReserved.fetch (h : s.AtReserved) : ∃ e, s.fetch = .error e := by
  rw [State.fetch_eq]
  rcases h with hph | ⟨hph, hcs⟩
  · rw [hph]
    exact ⟨_, rfl⟩
  · rw [hph, hcs]
    exact ⟨_, rfl⟩

theorem State.AtReserved.enabledOp (h : s.AtReserved) : s.enabledOp = none := by
  obtain ⟨e, he⟩ := h.fetch
  simp [State.enabledOp, he]

theorem State.AtReserved.doneOut (h : s.AtReserved) : s.doneOut = false := by
  rcases h with hph | ⟨hph, -⟩ <;> simp [State.doneOut, hph]

/-- No state of a run holds a reserved code (R55). -/
theorem State.PhaseInv.not_reserved (h : s.PhaseInv) : s.phase ≠ .reserved ∧ s.cs ≠ .reserved := by
  cases hph : s.phase with
  | reserved => exact ((State.phaseInv_reserved hph).1 h).elim
  | idle => exact ⟨nofun, by simp [((State.phaseInv_idle hph).1 h).1]⟩
  | loadOffsets => exact ⟨nofun, by simp [((State.phaseInv_loadOffsets hph).1 h).1]⟩
  | loadWeights => exact ⟨nofun, by simp [((State.phaseInv_loadWeights hph).1 h).1]⟩
  | loadTile => exact ⟨nofun, by simp [((State.phaseInv_loadTile hph).1 h).1]⟩
  | computeTile => exact ⟨nofun, ((State.phaseInv_computeTile hph).1 h).1⟩
  | storeTile => exact ⟨nofun, by simp [((State.phaseInv_storeTile hph).1 h).1]⟩
  | done => exact ⟨nofun, by simp [((State.phaseInv_done hph).1 h).1]⟩

theorem State.Inv.not_atReserved (h : s.Inv) : ¬ s.AtReserved := by
  obtain ⟨hph, hcs⟩ := h.phaseInv.not_reserved
  rintro (h | ⟨-, h⟩)
  · exact hph h
  · exact hcs h

/-- No move of the environment touches the selector (R179). -/
theorem State.hostMove_selector (s : State) (m : HostMove) :
    (s.hostMove m).phase = s.phase ∧ (s.hostMove m).cs = s.cs := by
  rcases s.hostMove_cases m with he | ⟨_, -, he⟩ | ⟨_, _, -, -, he⟩ | ⟨-, -, he⟩ | ⟨-, -, he⟩ <;> rw [he] <;>
    exact ⟨rfl, rfl⟩

theorem step_of_host {m : HostMove} {rest : List Turn} (h : s.sched = .host m :: rest) :
    step s = .next ({ s with sched := rest }.hostMove m) := by
  simp only [step, State.takeTurn, h]

/-- The kernel's step under a reserved selector takes its turn off the schedule and nothing else. -/
theorem State.AtReserved.step (h : s.AtReserved) (hturn : ∀ m rest, s.sched ≠ .host m :: rest) :
    step s = .next { s with sched := s.sched.tail } := by
  obtain ⟨e, he⟩ := State.AtReserved.fetch (s := { s with sched := s.sched.tail }) h
  simp only [Machine.step, State.takeTurn_of_not_host hturn, he]

end

/-- Settles O2, from the equivalence of the decoder with the rows of the table. -/
theorem selectorTableDecidesTheOperation : Obligations.SelectorTableDecidesTheOperation := by
  refine ⟨fun w i i' h h' => ?_, fun w => selWellFormed_iff, fun s i h => ?_, fun s => ?_⟩
  · rw [← decode_eq_ok_iff] at h h'
    exact Except.ok.inj (h.symm.trans h')
  · exact decode_eq_ok_iff.1 (State.enabledOp_eq_some_iff.1 h).1
  · simp [State.enabledOp_eq_some_iff_selects, State.Selects, State.condition, State.hasRoom_iff]

/-- Settles O3: the selector alone decides what the sub-step can decide, and only in `COMPUTE_TILE`. -/
theorem phaseAndSubStepCodes : Obligations.PhaseAndSubStepCodes := by
  refine ⟨rfl, rfl, fun ph => ?_, fun cs => ?_, fun s h => h.phaseInv.not_reserved, fun s cs hph => ?_⟩
  · cases ph <;> rfl
  · cases cs <;> rfl
  · simp only [State.enabledOp, State.fetch_with_cs cs hph, State.condition_with_cs cs]

/-- Settles O5: the kernel has no operation to perform, and the environment does not touch the selector. -/
theorem reservedSelectorIsStuckForGood : Obligations.ReservedSelectorIsStuckForGood := by
  refine ⟨fun s (h : s.AtReserved) => ⟨h.enabledOp, h.doneOut, ?_⟩, fun s hinv => hinv.not_atReserved⟩
  by_cases hhost : ∃ m rest, s.sched = .host m :: rest
  · obtain ⟨m, rest, hs⟩ := hhost
    obtain ⟨hph, hcs⟩ := State.hostMove_selector { s with sched := rest } m
    exact ⟨_, step_of_host hs, hph, hcs, fun hturn => absurd hs (hturn m rest)⟩
  · exact ⟨_, h.step (fun m rest hs => hhost ⟨m, rest, hs⟩), rfl, rfl, fun _ => rfl⟩

/-- Settles O32, from the input cursor of each phase (R55). -/
theorem positionDecidesTheFormat : Obligations.PositionDecidesTheFormat := by
  intro s h
  refine ⟨fun hf => ?_, fun hf => ?_, fun hf => ?_⟩
  · obtain ⟨-, hcnt, -, hicnt, -⟩ := (State.phaseInv_loadOffsets (State.fetch_eq_ok_iff.1 hf)).1 h.phaseInv
    omega
  · obtain ⟨-, hcnt, -, hicnt, -⟩ := (State.phaseInv_loadWeights (State.fetch_eq_ok_iff.1 hf)).1 h.phaseInv
    omega
  · obtain ⟨-, hcnt, hicnt, -⟩ := (State.phaseInv_loadTile (State.fetch_eq_ok_iff.1 hf)).1 h.phaseInv
    have htile : (s.t + 1) * s.cfg.tileInPkts ≤ s.cfg.nt * s.cfg.tileInPkts := Nat.mul_le_mul_right _ h.tile
    rw [Nat.succ_mul] at htile
    rw [s.cfg.isSize_eq]
    omega

end Sys2Proof.Machine

namespace Sys2Proof.Machine

open Sys2Proof

section
variable {s u : State} {q : List Packet}

/-! ### The sideband of the input packets (R100, R192) -/

/-- The two answers agree but for the sideband of the packets left in the input channel. -/
inductive AgreeButSideband : Result → Result → Prop where
  | next (t : State) (q : List Packet) (hq : q.map Packet.data = t.inCh.map Packet.data) :
      AgreeButSideband (.next t) (.next { t with inCh := q })
  | fault (f : Fault) : AgreeButSideband (.fault f) (.fault f)

theorem AgreeButSideband.of_next {t : State} {r : Result} (h : AgreeButSideband (.next t) r) :
    ∃ q, r = .next { t with inCh := q } ∧ q.map Packet.data = t.inCh.map Packet.data := by
  cases h with
  | next _ q hq => exact ⟨q, rfl, hq⟩

theorem AgreeButSideband.of_fault {f : Fault} {r : Result} (h : AgreeButSideband (.fault f) r) : r = .fault f := by
  cases h with
  | fault => rfl

/-- The guard of an operation does not look at the input channel. -/
theorem AgreeButSideband.ite {p : Prop} [Decidable p] {a b : Result} (hq : q.map Packet.data = s.inCh.map Packet.data)
    (h : AgreeButSideband a b) :
    AgreeButSideband (if p then a else .next s) (if p then b else .next { s with inCh := q }) := by
  split
  · exact h
  · exact .next s q hq

theorem AgreeButSideband.within {b : BufId} {r k n : Nat} {res res' : Result} (h : AgreeButSideband res res') :
    AgreeButSideband (s.within b r k n res) ({ s with inCh := q }.within b r k n res') := by
  unfold State.within
  split
  · exact h
  · exact .fault _

/-- An operation that pops finds packets of the same payload at the head (R121). -/
theorem AgreeButSideband.popping {k k' : Packet → State → Result}
    (hq : q.map Packet.data = s.inCh.map Packet.data)
    (h : ∀ (p p' : Packet) (rest rest' : List Packet), p'.data = p.data →
      rest'.map Packet.data = rest.map Packet.data →
      AgreeButSideband (k p { s with inCh := rest, icnt := s.icnt + 1 })
        (k' p' { s with inCh := rest', icnt := s.icnt + 1 })) :
    AgreeButSideband (s.popping k) ({ s with inCh := q }.popping k') := by
  cases hc : s.inCh with
  | nil =>
    obtain rfl : q = [] := by simpa [hc] using hq
    rw [State.popping_nil hc, State.popping_nil rfl]
    exact .next s [] (by rw [hc])
  | cons p rest =>
    obtain ⟨p', rest', rfl, hp, hrest⟩ : ∃ p' rest', q = p' :: rest' ∧ p'.data = p.data
        ∧ rest'.map Packet.data = rest.map Packet.data := by simpa [hc, List.map_eq_cons_iff] using hq
    rw [State.popping_cons hc, State.popping_cons rfl]
    exact h p p' rest rest' hp hrest

/-- The count moves on, or the phase ends, whatever the input channel holds. -/
theorem AgreeButSideband.countPacket {total : Nat} {atEnd : State} (hq : q.map Packet.data = u.inCh.map Packet.data)
    (hend : atEnd.inCh = u.inCh) :
    AgreeButSideband (.next (u.countPacket total atEnd))
      (.next ({ u with inCh := q }.countPacket total { atEnd with inCh := q })) := by
  unfold State.countPacket
  split
  · exact .next _ q hq
  · exact .next _ q (hend ▸ hq)

/-- Every operation answers the same whatever the sideband of the input packets (R100). -/
theorem exec_agreeButSideband (i : Instr) (hq : q.map Packet.data = s.inCh.map Packet.data) :
    AgreeButSideband (exec i s) (exec i { s with inCh := q }) := by
  cases i with
  | start => exact .ite hq (.next _ q hq)
  | ldoff | ldwgt | ldin =>
    refine .ite hq (.popping hq fun p p' rest rest' hp hrest => .within ?_)
    rw [hp]
    exact .countPacket hrest rfl
  | accinit => exact .ite hq (.within (.next _ q hq))
  | mac =>
    refine .ite hq (.within (.within ?_))
    dsimp only
    split
    · exact .next _ q hq
    · exact .next _ q hq
  | accwb =>
    refine .ite hq (.within ?_)
    dsimp only
    split
    · exact .next _ q hq
    · split
      · exact .next _ q hq
      · exact .next _ q hq
  | stout =>
    refine .ite hq (.within ?_)
    dsimp only
    split
    · exact .countPacket hq rfl
    · exact .countPacket hq rfl
  | ack => exact .ite hq (.next _ q hq)

end

/-- Settles O27, read off the agreement of the two answers. -/
theorem inputSidebandIsIgnored : Obligations.InputSidebandIsIgnored := by
  intro i s q hq
  have hagree := exec_agreeButSideband i hq
  refine ⟨fun t ht => ?_, fun f hf => ?_⟩
  · rw [ht] at hagree
    exact hagree.of_next
  · rw [hf] at hagree
    exact hagree.of_fault

section
variable {s : State} {i : Instr}

/-! ### The operations left, phase by phase (R109) -/

theorem tilesOps_succ (c : Config) (n : Nat) : tilesOps c (n + 1) = tileOps c ++ tilesOps c n := by
  simp [tilesOps, List.replicate_succ]

theorem dotsOps_succ (c : Config) (n : Nat) : dotsOps c (n + 1) = dotOps c ++ dotsOps c n := by
  simp [dotsOps, List.replicate_succ]

theorem replicate_sub_eq_cons {k n : Nat} (h : k < n) : List.replicate (n - k) i = i :: List.replicate (n - (k + 1)) i := by
  rw [← List.replicate_succ, ← Nat.sub_sub, Nat.sub_add_cancel (Nat.sub_pos_of_lt h)]

/-- What is left once the current tile has been computed: storing it, and the tiles after it (R109). -/
def State.storeTodo (s : State) : List Instr :=
  List.replicate s.cfg.tileOutPkts .stout ++ tilesOps s.cfg (s.cfg.nt - 1 - s.t)

theorem State.todo_idle (h : s.phase = .idle) : s.todo = runOps s.cfg := by
  unfold State.todo
  rw [h]

theorem State.todo_loadOffsets (h : s.phase = .loadOffsets) :
    s.todo = List.replicate (s.cfg.offPkts - s.cnt) .ldoff
      ++ (List.replicate s.cfg.wgtPkts .ldwgt ++ tilesOps s.cfg s.cfg.nt) := by
  unfold State.todo
  rw [h]
  exact List.append_assoc ..

theorem State.todo_loadWeights (h : s.phase = .loadWeights) :
    s.todo = List.replicate (s.cfg.wgtPkts - s.cnt) .ldwgt ++ tilesOps s.cfg s.cfg.nt := by
  unfold State.todo
  rw [h]

theorem State.todo_loadTile (h : s.phase = .loadTile) :
    s.todo = List.replicate (s.cfg.tileInPkts - s.cnt) .ldin
      ++ (dotsOps s.cfg (s.cfg.tiling * s.cfg.classes) ++ s.storeTodo) := by
  unfold State.todo
  rw [h]
  simp [State.storeTodo]

theorem State.todo_computeTile (h : s.phase = .computeTile) :
    s.todo = s.dotTodo
      ++ (dotsOps s.cfg (s.cfg.tiling * s.cfg.classes - 1 - (s.i * s.cfg.classes + s.j)) ++ s.storeTodo) := by
  unfold State.todo
  rw [h]
  simp [State.storeTodo]

theorem State.todo_storeTile (h : s.phase = .storeTile) :
    s.todo = List.replicate (s.cfg.tileOutPkts - s.cnt) .stout ++ tilesOps s.cfg (s.cfg.nt - 1 - s.t) := by
  unfold State.todo
  rw [h]

theorem State.todo_done (h : s.phase = .done) : s.todo = [] := by
  unfold State.todo
  rw [h]

/-- On entry to `LOAD_TILE` whole tiles are left. -/
theorem State.todo_tileStart (h : s.phase = .loadTile) (hcnt : s.cnt = 0) (ht : s.t < s.cfg.nt) :
    s.todo = tilesOps s.cfg (s.cfg.nt - s.t) := by
  have htiles : s.cfg.nt - s.t = s.cfg.nt - 1 - s.t + 1 := by omega
  rw [State.todo_loadTile h, hcnt, htiles, tilesOps_succ]
  simp [tileOps, State.storeTodo]

/-- On entry to an output element whole elements are left of the tile. -/
theorem State.todo_dotStart (h : s.phase = .computeTile) (hcs : s.cs = .init) (hi : s.i < s.cfg.tiling)
    (hj : s.j < s.cfg.classes) :
    s.todo = dotsOps s.cfg (s.cfg.tiling * s.cfg.classes - (s.i * s.cfg.classes + s.j)) ++ s.storeTodo := by
  have hrow : (s.i + 1) * s.cfg.classes ≤ s.cfg.tiling * s.cfg.classes := Nat.mul_le_mul_right _ hi
  rw [Nat.succ_mul] at hrow
  have hdots : s.cfg.tiling * s.cfg.classes - (s.i * s.cfg.classes + s.j)
      = s.cfg.tiling * s.cfg.classes - 1 - (s.i * s.cfg.classes + s.j) + 1 := by omega
  rw [State.todo_computeTile h, hdots, dotsOps_succ, List.append_assoc, State.dotTodo, hcs]

/-- On entry to `STORE_TILE` the whole tile is to be stored. -/
theorem State.todo_storeStart (h : s.phase = .storeTile) (hcnt : s.cnt = 0) : s.todo = s.storeTodo := by
  rw [State.todo_storeTile h, hcnt, Nat.sub_zero, State.storeTodo]

/-- Where a phase handles `total` packets by the operation `i` and then does `rest`, counting one packet drops one `i`. -/
theorem State.todo_countPacket {u atEnd : State} {n total : Nat} {rest : List Instr} (hn : u.cnt = n) (hlt : n < total)
    (more : { u with cnt := u.cnt + 1 }.todo = List.replicate (total - (n + 1)) i ++ rest) (last : atEnd.todo = rest) :
    List.replicate (total - n) i ++ rest = i :: (u.countPacket total atEnd).todo := by
  have htail : (u.countPacket total atEnd).todo = List.replicate (total - (n + 1)) i ++ rest := by
    refine State.countPacket_intro (P := fun v => v.todo = List.replicate (total - (n + 1)) i ++ rest)
      (fun _ => more) fun hle => ?_
    rw [last, Nat.sub_eq_zero_of_le (hn ▸ hle), List.replicate_zero, List.nil_append]
  rw [htail, replicate_sub_eq_cons hlt, List.cons_append]

/-! ### One operation takes the head of the list (R166, R167) -/

/-- The operation `i` completes, and the operations left before it are `i` and those left after it. -/
def State.Follows (s : State) (i : Instr) : Prop := ∃ t, exec i s = .next t ∧ s.todo = i :: t.todo

theorem start_follows (hph : s.phase = .idle) (hstart : s.startReq = true) : s.Follows .start := by
  refine ⟨_, if_pos ⟨hph, hstart⟩, ?_⟩
  rw [State.todo_idle hph, State.todo_loadOffsets rfl]
  simp [runOps]

theorem ldoff_follows (h : s.Inv) (hph : s.phase = .loadOffsets) (hc : s.inCh ≠ []) : s.Follows .ldoff := by
  obtain ⟨-, hcnt, -⟩ := (State.phaseInv_loadOffsets hph).1 h.phaseInv
  obtain ⟨p, rest, hc⟩ := List.exists_cons_of_ne_nil hc
  refine ⟨_, (if_pos hph).trans ((State.popping_cons hc).trans (State.within_of_holds (bufHolds_off hcnt))), ?_⟩
  rw [State.todo_loadOffsets hph]
  refine State.todo_countPacket rfl hcnt ?_ ?_
  · exact State.todo_loadOffsets hph
  · exact State.todo_loadWeights rfl

theorem ldwgt_follows (h : s.Inv) (hph : s.phase = .loadWeights) (hc : s.inCh ≠ []) : s.Follows .ldwgt := by
  obtain ⟨-, hcnt, ht, -⟩ := (State.phaseInv_loadWeights hph).1 h.phaseInv
  obtain ⟨p, rest, hc⟩ := List.exists_cons_of_ne_nil hc
  refine ⟨_, (if_pos hph).trans ((State.popping_cons hc).trans (State.within_of_holds (bufHolds_wgt hcnt))), ?_⟩
  rw [State.todo_loadWeights hph]
  refine State.todo_countPacket rfl hcnt ?_ ?_
  · exact State.todo_loadWeights hph
  · rw [State.todo_tileStart rfl rfl]
    · simp [ht]
    · exact h.tile

theorem ldin_follows (h : s.Inv) (hph : s.phase = .loadTile) (hc : s.inCh ≠ []) : s.Follows .ldin := by
  obtain ⟨-, hcnt, -⟩ := (State.phaseInv_loadTile hph).1 h.phaseInv
  obtain ⟨p, rest, hc⟩ := List.exists_cons_of_ne_nil hc
  refine ⟨_, (if_pos hph).trans ((State.popping_cons hc).trans (State.within_of_holds (bufHolds_inp hcnt))), ?_⟩
  rw [State.todo_loadTile hph]
  refine State.todo_countPacket rfl hcnt ?_ ?_
  · exact State.todo_loadTile hph
  · rw [State.todo_dotStart rfl rfl]
    · simp [State.storeTodo]
    · exact s.cfg.tiling_pos
    · exact s.cfg.classes_pos

theorem accinit_follows (h : s.Inv) (hph : s.phase = .computeTile) (hcs : s.cs = .init) : s.Follows .accinit := by
  obtain ⟨-, -, hj, -⟩ := (State.phaseInv_computeTile hph).1 h.phaseInv
  refine ⟨_, (if_pos ⟨hph, hcs⟩).trans (State.within_of_holds (bufHolds_one Nat.one_pos hj)), ?_⟩
  rw [State.todo_computeTile hph, State.todo_computeTile]
  · simp [State.dotTodo, hcs, dotOps, State.storeTodo]
  · exact hph

theorem mac_follows (h : s.Inv) (hph : s.phase = .computeTile) (hcs : s.cs = .macs) : s.Follows .mac := by
  obtain ⟨-, hi, hj, hg, -⟩ := (State.phaseInv_computeTile hph).1 h.phaseInv
  refine ⟨_, (if_pos ⟨hph, hcs⟩).trans ((State.within_of_holds (bufHolds_row (b := .inp) hi)).trans
    (State.within_of_holds (bufHolds_row (b := .wgt) hj))), ?_⟩
  rw [State.todo_computeTile hph]
  dsimp only
  split
  next hlt =>
    rw [State.todo_computeTile]
    · simp [State.dotTodo, hcs, State.storeTodo, replicate_sub_eq_cons (hg hcs)]
    · exact hph
  next hge =>
    have hlast : s.cfg.ng - s.g = 1 := by
      have := hg hcs
      omega
    rw [State.todo_computeTile]
    · simp [State.dotTodo, hcs, State.storeTodo, hlast]
    · exact hph

theorem accwb_follows (h : s.Inv) (hph : s.phase = .computeTile) (hcs : s.cs = .wb) : s.Follows .accwb := by
  obtain ⟨-, hi, hj, -⟩ := (State.phaseInv_computeTile hph).1 h.phaseInv
  refine ⟨_, (if_pos ⟨hph, hcs⟩).trans (State.within_of_holds (bufHolds_one hi hj)), ?_⟩
  rw [State.todo_computeTile hph, State.dotTodo, hcs, Nat.sub_sub, Nat.add_comm 1, Nat.add_assoc]
  dsimp only
  split
  next hj' =>
    rw [State.todo_dotStart]
    · rfl
    · exact hph
    · rfl
    · exact hi
    · exact hj'
  next hj' =>
    have hlast : s.j + 1 = s.cfg.classes := by omega
    split
    next hi' =>
      rw [State.todo_dotStart]
      · simp [hlast, Nat.succ_mul, State.storeTodo]
      · exact hph
      · rfl
      · exact hi'
      · exact s.cfg.classes_pos
    next hi' =>
      have hlast' : s.i + 1 = s.cfg.tiling := by omega
      rw [State.todo_storeStart rfl rfl, hlast, ← Nat.succ_mul, Nat.succ_eq_add_one, hlast', Nat.sub_self]
      rfl

theorem stout_follows (h : s.Inv) (hph : s.phase = .storeTile) (hroom : s.hasRoom = true) : s.Follows .stout := by
  obtain ⟨-, hcnt, -⟩ := (State.phaseInv_storeTile hph).1 h.phaseInv
  refine ⟨_, (if_pos ⟨hph, hroom⟩).trans (State.within_of_holds (bufHolds_out hcnt)), ?_⟩
  rw [State.todo_storeTile hph]
  refine State.todo_countPacket rfl hcnt ?_ ?_
  · exact State.todo_storeTile hph
  · split
    next ht =>
      rw [State.todo_tileStart rfl rfl]
      · simp [Nat.sub_sub, Nat.add_comm]
      · exact ht
    next ht =>
      have hlast : s.cfg.nt - 1 - s.t = 0 := by omega
      rw [State.todo_done rfl, hlast]
      rfl

end

/-- Settles O35, operation by operation. -/
theorem operationsFollowTheFixedSequence : Obligations.OperationsFollowTheFixedSequence := by
  intro s i h hen hack
  obtain ⟨hsel, hcond⟩ := State.enabledOp_eq_some_iff_selects.1 hen
  have inCh_ne_nil (he : (!s.inCh.isEmpty) = true) : s.inCh ≠ [] := by simpa using he
  cases i with
  | start => exact start_follows hsel hcond
  | ldoff => exact ldoff_follows h hsel (inCh_ne_nil hcond)
  | ldwgt => exact ldwgt_follows h hsel (inCh_ne_nil hcond)
  | ldin => exact ldin_follows h hsel (inCh_ne_nil hcond)
  | accinit => exact accinit_follows h hsel.1 hsel.2
  | mac => exact mac_follows h hsel.1 hsel.2
  | accwb => exact accwb_follows h hsel.1 hsel.2
  | stout => exact stout_follows h hsel hcond
  | ack => exact absurd rfl hack

end Sys2Proof.Machine

/-! # Proofs: packing and the Stream Unpacker (40_stream_unpacker.md) -/

namespace Sys2Proof.Machine

open Sys2Proof

section
variable {w r : Nat} {s : State} {p : Packet} {rest : List Packet}

/-! ### Lanes and payloads, bit by bit (R19, R122, R156) -/

theorem getLsbD_lane (d : Payload) (e : Nat) {n : Nat} (hn : n < w) :
    (lane d w e).getLsbD n = d.getLsbD (e * w + n) := by
  simp [lane, hn]

@[simp] theorem getElem?_unpack (d : Payload) (e : Nat) :
    (unpack w r d)[e]? = if e < r then some (lane d w e) else none := by
  split <;> simp [unpack, *]

/-- Bit `n` of element `e` stands at bit `e*W + n` of the packed payload, if the payload has such a bit; a missing element
counts as zeros (R19, R156). -/
theorem getLsbD_pack (vs : List (BitVec w)) (e : Nat) {n : Nat} (hn : n < w) (hbit : e * w + n < 64) :
    (pack w vs).getLsbD (e * w + n) = (vs[e]?.getD 0#w).getLsbD n := by
  induction vs generalizing e with
  | nil => simp [pack]
  | cons v vs ih =>
    simp only [pack, BitVec.getLsbD_or, BitVec.getLsbD_setWidth, BitVec.getLsbD_shiftLeft]
    cases e with
    | zero =>
      rw [Nat.zero_mul, Nat.zero_add] at hbit ⊢
      simp [hn, hbit]
    | succ e =>
      have hpos : (e + 1) * w + n = w + (e * w + n) := by rw [Nat.succ_mul]; omega
      rw [hpos] at hbit ⊢
      simp [hbit, ih e (by omega)]

/-- A bit of one of the lanes of a payload is one of its 64 bits (R9, R122). -/
theorem lane_bit_lt (hw : r * w = 64) {e n : Nat} (he : e < r) (hn : n < w) : e * w + n < 64 :=
  calc e * w + n < (e + 1) * w := by rw [Nat.succ_mul]; omega
    _ ≤ r * w := Nat.mul_le_mul_right w he
    _ = 64 := hw

/-- A lane of the packed payload is the element packed there (R156). -/
theorem lane_pack (hw : r * w = 64) (vs : List (BitVec w)) {e : Nat} (he : e < r) :
    lane (pack w vs) w e = vs[e]?.getD 0#w := by
  refine BitVec.eq_of_getLsbD_eq fun n hn => ?_
  rw [getLsbD_lane _ _ hn, getLsbD_pack vs e hn (lane_bit_lt hw he hn)]

theorem unpack_pack (hw : r * w = 64) (vs : List (BitVec w)) (hlen : vs.length = r) : unpack w r (pack w vs) = vs := by
  refine List.ext_getElem? fun e => ?_
  rw [getElem?_unpack]
  split
  next he => simp [lane_pack hw vs he, hlen, he]
  next he => exact (List.getElem?_eq_none (by omega)).symm

/-- Every bit of a payload is in one of its lanes, so nothing is lost (R122). -/
theorem pack_unpack (hw : r * w = 64) (d : Payload) : pack w (unpack w r d) = d := by
  refine BitVec.eq_of_getLsbD_eq fun n hn => ?_
  have hpos : 0 < w := Nat.pos_of_ne_zero fun h => by simp [h] at hw
  have he : n / w < r := (Nat.div_lt_iff_lt_mul hpos).2 (by omega)
  have hmod : n % w < w := Nat.mod_lt n hpos
  rw [← Nat.div_add_mod' n w] at hn ⊢
  rw [getLsbD_pack _ _ hmod hn, getElem?_unpack, if_pos he, Option.getD_some, getLsbD_lane _ _ hmod]

/-! ### A payload written to a buffer (R78) -/

/-- Reading after a payload's lanes were written: lane by lane in their range, what was there before elsewhere. -/
theorem Buf.read_writeRun_unpack (id : BufId) (a a' : Nat) (d : Payload) (b : Buf w) :
    (b.writeRun a (unpack w r d)).read id a' = if a ≤ a' ∧ a' < a + r then lane d w (a' - a) else b.read id a' := by
  rw [Buf.read_writeRun, getElem?_unpack]
  by_cases hle : a ≤ a'
  · have hlt : a' - a < r ↔ a' < a + r := by omega
    simp only [hle, hlt, if_true, true_and]
    split <;> rfl
  · simp [hle]

/-! ### One packet of a load phase (R121, R123, R124) -/

/-- The count moves on, or the next phase is entered, as an equation of the whole state (R34). -/
theorem State.countPacket_enter (total : Nat) (ph : Phase) :
    s.countPacket total (s.enter ph) = { s with
      phase := if s.cnt + 1 < total then s.phase else ph
      cnt := if s.cnt + 1 < total then s.cnt + 1 else 0 } := by
  unfold State.countPacket
  split <;> rfl

theorem execLdoff_of_cons (hph : s.phase = .loadOffsets) (hc : s.inCh = p :: rest) (hcnt : s.cnt < s.cfg.offPkts) :
    execLdoff s = .next { s with
      inCh := rest, icnt := s.icnt + 1
      mem := { s.mem with off := s.mem.off.writeRun (bufIndex s.cfg .off 0 (2 * s.cnt)) (unpack 32 2 p.data) }
      phase := if s.cnt + 1 < s.cfg.offPkts then .loadOffsets else .loadWeights
      cnt := if s.cnt + 1 < s.cfg.offPkts then s.cnt + 1 else 0 } := by
  rw [← hph]
  exact (if_pos hph).trans <| (State.popping_cons hc).trans <|
    (State.within_of_holds (bufHolds_off hcnt)).trans <| congrArg _ (State.countPacket_enter _ _)

theorem execLdwgt_of_cons (hph : s.phase = .loadWeights) (hc : s.inCh = p :: rest) (hcnt : s.cnt < s.cfg.wgtPkts) :
    execLdwgt s = .next { s with
      inCh := rest, icnt := s.icnt + 1
      mem := { s.mem with
        wgt := s.mem.wgt.writeRun (bufIndex s.cfg .wgt (s.cnt / s.cfg.fpp) (8 * (s.cnt % s.cfg.fpp))) (unpack 8 8 p.data) }
      phase := if s.cnt + 1 < s.cfg.wgtPkts then .loadWeights else .loadTile
      cnt := if s.cnt + 1 < s.cfg.wgtPkts then s.cnt + 1 else 0 } := by
  rw [← hph]
  exact (if_pos hph).trans <| (State.popping_cons hc).trans <|
    (State.within_of_holds (bufHolds_wgt hcnt)).trans <| congrArg _ (State.countPacket_enter _ _)

theorem State.enabledOp_ldoff_iff : s.enabledOp = some .ldoff ↔ s.phase = .loadOffsets ∧ s.inCh ≠ [] := by
  simp [State.enabledOp_eq_some_iff_selects, State.Selects, State.condition]

theorem State.enabledOp_ldwgt_iff : s.enabledOp = some .ldwgt ↔ s.phase = .loadWeights ∧ s.inCh ≠ [] := by
  simp [State.enabledOp_eq_some_iff_selects, State.Selects, State.condition]

end

/-- Settles O4: a payload is its lanes bit by bit, since `R*W` bits are all of it. -/
theorem packAndUnpackAreInverse : Obligations.PackAndUnpackAreInverse := fun _ _ hw =>
  ⟨pack_unpack hw, unpack_pack hw, fun d e he =>
    ⟨by rw [getElem?_unpack, if_pos he], fun _ hn => getLsbD_lane d e hn⟩⟩

/-- Settles O15: the two lanes of 32 bits go to two consecutive offsets. -/
theorem ldoffLoadsTwoOffsets : Obligations.LdoffLoadsTwoOffsets := by
  refine ⟨fun x => decode_eq_ok_iff.2 (by revert x; decide), fun s p rest hph hc hcnt => ?_, fun s h => ?_⟩
  · refine ⟨_, execLdoff_of_cons hph hc hcnt, fun a => ?_⟩
    have hsucc : bufIndex s.cfg .off 0 (2 * s.cnt + 1) = bufIndex s.cfg .off 0 (2 * s.cnt) + 1 := rfl
    rw [Buf.read_writeRun_unpack, hsucc]
    generalize bufIndex s.cfg .off 0 (2 * s.cnt) = at0
    by_cases h0 : a = at0
    · simp [h0, lane]
    · by_cases h1 : a = at0 + 1
      · simp [h1, lane]
      · rw [if_neg h0, if_neg h1, if_neg (by omega)]
  · exact disabledOperationChangesNothing s .ldoff (mt State.enabledOp_ldoff_iff.1 h)

/-- Settles O16: the eight lanes of 8 bits go to eight consecutive weights of one class. -/
theorem ldwgtLoadsEightWeights : Obligations.LdwgtLoadsEightWeights := by
  refine ⟨fun x => decode_eq_ok_iff.2 (by revert x; decide), fun s p rest at0 hph hc hcnt hat => ?_, fun s h => ?_⟩
  · subst hat
    refine ⟨_, execLdwgt_of_cons hph hc hcnt, fun a => ?_⟩
    rw [Buf.read_writeRun_unpack, lane, Nat.mul_comm _ 8]
  · exact disabledOperationChangesNothing s .ldwgt (mt State.enabledOp_ldwgt_iff.1 h)

end Sys2Proof.Machine

/-! # Proofs: the Tile Loader (41_tile_loader.md) -/

namespace Sys2Proof.Machine

open Sys2Proof

section
variable {s : State} {p : Packet} {rest : List Packet}

/-- LDIN on a packet, as an equation of the whole state: the last packet of the tile starts the computation and keeps the
count (R131). -/
theorem execLdin_of_cons (hph : s.phase = .loadTile) (hc : s.inCh = p :: rest) (hcnt : s.cnt < s.cfg.tileInPkts) :
    execLdin s = .next
      (let s' := { s with
        inCh := rest, icnt := s.icnt + 1
        mem := { s.mem with
          inp := s.mem.inp.writeRun (bufIndex s.cfg .inp (s.cnt / s.cfg.fpp) (8 * (s.cnt % s.cfg.fpp)))
            (unpack 8 8 p.data) } }
      if s.cnt + 1 < s.cfg.tileInPkts then { s' with cnt := s.cnt + 1 }
      else { s' with phase := .computeTile, i := 0, j := 0, g := 0, cs := .init }) :=
  (if_pos hph).trans <| (State.popping_cons hc).trans <| State.within_of_holds (bufHolds_inp hcnt)

theorem State.enabledOp_ldin_iff : s.enabledOp = some .ldin ↔ s.phase = .loadTile ∧ s.inCh ≠ [] := by
  simp [State.enabledOp_eq_some_iff_selects, State.Selects, State.condition]

end

/-- Settles O17: the eight lanes of 8 bits go to eight consecutive features of one row of the tile. -/
theorem ldinLoadsEightInputs : Obligations.LdinLoadsEightInputs := by
  refine ⟨fun x => decode_eq_ok_iff.2 (by revert x; decide), fun s p rest at0 hph hc hcnt hat => ?_, fun s h => ?_⟩
  · subst hat
    refine ⟨_, execLdin_of_cons hph hc hcnt, fun a => ?_⟩
    rw [Buf.read_writeRun_unpack, lane, Nat.mul_comm _ 8]
  · exact disabledOperationChangesNothing s .ldin (mt State.enabledOp_ldin_iff.1 h)

end Sys2Proof.Machine

/-! # Proofs: the Dot-Product Engine (42_dot_product_engine.md) -/

namespace Sys2Proof.Machine

open Sys2Proof

section
variable {n m : Nat}

/-! ### Wrapping (R18, R139, R147) -/

/-- Wrapping respects addition: it is a reading modulo `2^n` (R18). -/
theorem wrap_add (a b : Int) : wrap n (a + b) = wrap n a + wrap n b := BitVec.ofInt_add a b

/-- A register holds the wrap of its signed value (R17, R18). -/
theorem wrap_sval (r : BitVec n) : wrap n (sval r) = r := BitVec.ofInt_toInt

/-- Adding to a register wraps once more, and so adds the wrapped integer (R139). -/
theorem wrap_sval_add (r : BitVec n) (z : Int) : wrap n (sval r + z) = r + wrap n z := by
  rw [wrap_add, wrap_sval]

/-- An addend of a wrapped sum can be taken in before wrapping (R147). -/
theorem wrap_sval_wrap_add (a z : Int) : wrap n (sval (wrap n a) + z) = wrap n (a + z) := by
  rw [wrap_sval_add, wrap_add]

/-- A wider register on the way changes nothing: `2^N` divides `2^M` (R147). -/
theorem wrap_sval_wrap (h : n ≤ m) (z : Int) : wrap n (sval (wrap m z)) = wrap n z := by
  refine BitVec.eq_of_toInt_eq ?_
  simp only [wrap, sval, BitVec.toInt_ofInt]
  exact Int.bmod_bmod_of_dvd (Nat.pow_dvd_pow 2 h)

/-- An integer in the signed range of the width is held without loss (R17, R18). -/
theorem sval_wrap_eq_self (hn : 0 < n) {z : Int} (hlo : -2 ^ (n - 1) ≤ z) (hhi : z < 2 ^ (n - 1)) :
    sval (wrap n z) = z :=
  BitVec.toInt_ofInt_eq_self hn hlo hhi

/-! ### Products and their sums (R136, R137) -/

theorem prod_bounds (x w : Narrow) : -32640 ≤ prod x w ∧ prod x w ≤ 32385 := by
  have hx0 : 0 ≤ uval x := Int.natCast_nonneg _
  have hx1 : 0 ≤ 255 - uval x := by have := x.isLt; unfold uval; omega
  have hw0 : 0 ≤ sval w + 128 := by have := w.le_toInt; unfold sval; omega
  have hw1 : 0 ≤ 127 - sval w := by have := w.toInt_lt; unfold sval; omega
  unfold prod
  constructor
  · linarith [mul_nonneg hx0 hw0]
  · linarith [mul_nonneg hx0 hw1]

/-- At most `n` products add up to at most `n` times the range of one. -/
theorem sum_prod_bounds (x w : Nat → Narrow) {s : Finset Nat} (h : s.card ≤ n) :
    -32640 * n ≤ ∑ k ∈ s, prod (x k) (w k) ∧ ∑ k ∈ s, prod (x k) (w k) ≤ 32385 * n := by
  have hlo := s.card_nsmul_le_sum (fun k => prod (x k) (w k)) _ fun k _ => (prod_bounds (x k) (w k)).1
  have hhi := s.sum_le_card_nsmul (fun k => prod (x k) (w k)) _ fun k _ => (prod_bounds (x k) (w k)).2
  rw [nsmul_eq_mul] at hlo hhi
  omega

/-! ### Groups (R137, R148) -/

section
variable (c : Config) (x w : Nat → Narrow) (g : Nat)

theorem gsum_eq_sum_range :
    gsum c x w g = ∑ l ∈ Finset.range c.lanes,
      if g * c.lanes + l < c.feat then prod (x (g * c.lanes + l)) (w (g * c.lanes + l)) else 0 := rfl

/-- A group is a run of consecutive features, cut off at `FEAT` (R137). -/
theorem gsum_eq_sum_Ico :
    gsum c x w g = ∑ k ∈ Finset.Ico (g * c.lanes) (min ((g + 1) * c.lanes) c.feat), prod (x k) (w k) := by
  rw [← Finset.Ico_filter_lt, Finset.sum_filter, Finset.sum_Ico_eq_sum_range, Nat.succ_mul, Nat.add_sub_cancel_left,
    gsum_eq_sum_range]

/-- The groups handled so far add up to the products of the features they reach (R148). -/
theorem sum_gsum {n : Nat} (h : n ≤ c.ng) :
    ∑ g ∈ Finset.range n, gsum c x w g = ∑ k ∈ Finset.range (min (n * c.lanes) c.feat), prod (x k) (w k) := by
  induction n with
  | zero => simp
  | succ n ih =>
    have hstart : min (n * c.lanes) c.feat = n * c.lanes := Nat.min_eq_left (c.group_lt_feat h).le
    have hle : n * c.lanes ≤ min ((n + 1) * c.lanes) c.feat :=
      Nat.le_min.2 ⟨Nat.mul_le_mul_right _ n.le_succ, (c.group_lt_feat h).le⟩
    rw [Finset.sum_range_succ, ih (Nat.le_of_succ_le h), hstart, gsum_eq_sum_Ico, Finset.sum_range_add_sum_Ico _ hle]

/-- All the groups add up to the products of all the features, for every engine width (R148). -/
theorem sum_gsum_ng : ∑ g ∈ Finset.range c.ng, gsum c x w g = ∑ k ∈ Finset.range c.feat, prod (x k) (w k) := by
  rw [sum_gsum c x w le_rfl, Nat.min_eq_right c.feat_le_ng_lanes]

end

/-! ### The adder tree (R138) -/

section
variable {α β : Type}

theorem length_treeLevel [Add α] : ∀ l : List α, (treeLevel l).length = (l.length + 1) / 2
  | [] | [_] => by simp [treeLevel]
  | _ :: _ :: r => by
    simp only [treeLevel, List.length_cons, length_treeLevel r]
    omega

theorem sum_treeLevel [AddMonoid α] : ∀ l : List α, (treeLevel l).sum = l.sum
  | [] | [_] => rfl
  | a :: b :: r => by simp only [treeLevel, List.sum_cons, sum_treeLevel r, add_assoc]

/-- A tree level commutes with a function that respects addition. -/
theorem treeLevel_map [Add α] [Add β] {f : α → β} (hf : ∀ a b, f (a + b) = f a + f b) :
    ∀ l : List α, treeLevel (l.map f) = (treeLevel l).map f
  | [] | [_] => rfl
  | a :: b :: r => by simp only [treeLevel, List.map_cons, treeLevel_map hf r, hf]

theorem treeLevels_map [Add α] [Add β] {f : α → β} (hf : ∀ a b, f (a + b) = f a + f b) (l : List α) :
    treeLevels n (l.map f) = (treeLevels n l).map f := by
  induction n generalizing l with
  | zero => rfl
  | succ n ih => rw [treeLevels, treeLevel_map hf, ih, treeLevels]

/-- `n` levels reduce at most `2^n` values to their sum: each level halves their number and keeps their sum (R138). -/
theorem treeLevels_eq_sum [AddMonoid α] {l : List α} (hpos : 0 < l.length) (hle : l.length ≤ 2 ^ n) :
    treeLevels n l = [l.sum] := by
  induction n generalizing l with
  | zero =>
    obtain ⟨a, rfl⟩ := List.length_eq_one_iff.1 (Nat.le_antisymm hle hpos)
    simp [treeLevels]
  | succ n ih =>
    have hlen := length_treeLevel l
    rw [Nat.pow_succ] at hle
    rw [treeLevels, ih (by omega) (by omega), sum_treeLevel]

end

end

section
variable {s t u : State} {n m : Nat}

/-! ### One operation of the engine (R140-R142) -/

/-- An offset is as wide as the accumulator, so its sign extension is the offset itself (R9, R139). -/
theorem accLoad_eq (off : Wide) : accLoad off = off := BitVec.signExtend_eq off

/-- ACCINIT, as an equation of the whole state (R140). -/
theorem execAccinit_of_init (hph : s.phase = .computeTile) (hcs : s.cs = .init) (hj : s.j < s.cfg.classes) :
    execAccinit s = .next { s with acc := s.offAt s.j, g := 0, cs := .macs } := by
  rw [← accLoad_eq (s.offAt s.j)]
  exact (if_pos ⟨hph, hcs⟩).trans (State.within_of_holds (bufHolds_one Nat.one_pos hj))

/-- MAC, as an equation of the whole state: the last group keeps its number and ends the reduction (R141). -/
theorem execMac_of_macs (hph : s.phase = .computeTile) (hcs : s.cs = .macs) (hi : s.i < s.cfg.tiling)
    (hj : s.j < s.cfg.classes) :
    execMac s = .next { s with
      acc := accAdd s.acc (gsum s.cfg (s.inpAt s.i) (s.wgtAt s.j) s.g)
      g := if s.g + 1 < s.cfg.ng then s.g + 1 else s.g
      cs := if s.g + 1 < s.cfg.ng then .macs else .wb } := by
  refine (if_pos ⟨hph, hcs⟩).trans <| (State.within_of_holds (bufHolds_row (b := .inp) hi)).trans <|
    (State.within_of_holds (bufHolds_row (b := .wgt) hj)).trans <| congrArg _ ?_
  rw [← hcs]
  split <;> rfl

/-- The loop counters move on to the next output element of the tile, or the tile is computed (R142). -/
def State.nextElement (s : State) : State :=
  if s.j + 1 < s.cfg.classes then { s with j := s.j + 1, g := 0 }
  else if s.i + 1 < s.cfg.tiling then { s with i := s.i + 1, j := 0, g := 0 }
  else s.enter .storeTile

/-- ACCWB, as an equation of the whole state (R142). -/
theorem execAccwb_of_wb (hph : s.phase = .computeTile) (hcs : s.cs = .wb) (hi : s.i < s.cfg.tiling)
    (hj : s.j < s.cfg.classes) :
    execAccwb s = .next { s.writeOut s.i s.j s.acc with cs := .init }.nextElement :=
  (if_pos ⟨hph, hcs⟩).trans (State.within_of_holds (bufHolds_one hi hj))

/-! ### What the compute phase may change (R144, R145) -/

/-- `z`, the exact sum of the output element at row `i` and class `j`: the offset and all the products (R146). -/
def State.exactSum (s : State) (i j : Nat) : Int :=
  sval (s.offAt j) + ∑ k ∈ Finset.range s.cfg.feat, prod (s.inpAt i k) (s.wgtAt j k)

/-- `t` is `s` but for what the compute phase may change, and stands before an output element or past the last one (R144,
R145). -/
def State.SameBesideCompute (s t : State) : Prop :=
  t = { s with
    acc := t.acc, mem := { s.mem with out := t.mem.out }, i := t.i, j := t.j, g := t.g, cs := .init
    phase := t.phase, cnt := t.cnt }

theorem State.SameBesideCompute.trans (ht : s.SameBesideCompute t) (hu : t.SameBesideCompute u) :
    s.SameBesideCompute u :=
  Eq.trans hu (by rw [show t = _ from ht])

theorem State.SameBesideCompute.cfg (h : s.SameBesideCompute t) : t.cfg = s.cfg := (congrArg State.cfg h :)

theorem State.SameBesideCompute.cs (h : s.SameBesideCompute t) : t.cs = .init := (congrArg State.cs h :)

theorem State.SameBesideCompute.sched (h : s.SameBesideCompute t) : t.sched = s.sched := (congrArg State.sched h :)

/-- The exact sums are those of the offsets, weights and inputs, which the compute phase only reads. -/
theorem State.SameBesideCompute.exactSum (h : s.SameBesideCompute t) : t.exactSum = s.exactSum :=
  (congrArg State.exactSum h :)

/-! ### From one output element to the next (R142) -/

/-- The tile is computed after the last element of its last row, and the next phase counts from 0 (R34, R142). -/
theorem State.nextElement_phase_cnt :
    s.nextElement.phase = (if s.j + 1 < s.cfg.classes ∨ s.i + 1 < s.cfg.tiling then s.phase else .storeTile)
      ∧ s.nextElement.cnt = if s.j + 1 < s.cfg.classes ∨ s.i + 1 < s.cfg.tiling then s.cnt else 0 := by
  unfold State.nextElement
  by_cases hj : s.j + 1 < s.cfg.classes
  · simp [hj]
  · by_cases hi : s.i + 1 < s.cfg.tiling <;> simp [hj, hi]

theorem State.nextElement_sameBesideCompute (hcs : s.cs = .init) : s.SameBesideCompute s.nextElement := by
  unfold State.SameBesideCompute State.nextElement
  rw [← hcs]
  split_ifs <;> rfl

@[simp] theorem State.nextElement_mem : s.nextElement.mem = s.mem := by
  unfold State.nextElement
  split_ifs <;> rfl

/-- Elements are left in the row or rows in the tile exactly when the element is not the last in row-major order (R64). -/
theorem elementsLeft_iff {c : Config} {i j : Nat} (hi : i < c.tiling) (hj : j < c.classes) :
    j + 1 < c.classes ∨ i + 1 < c.tiling ↔ i * c.classes + j + 1 < c.tiling * c.classes := by
  have hrow : (i + 1) * c.classes = i * c.classes + c.classes := Nat.succ_mul ..
  rcases Nat.lt_or_eq_of_le (Nat.succ_le_of_lt hi) with hi' | hi'
  · have hle : (i + 1 + 1) * c.classes ≤ c.tiling * c.classes := Nat.mul_le_mul_right _ hi'
    rw [Nat.succ_mul] at hle
    omega
  · rw [← hi', Nat.succ_eq_add_one, hrow]
    omega

/-- The elements of a tile are taken in row-major order (R142). -/
theorem State.nextElement_position (hi : s.i < s.cfg.tiling) (hj : s.j < s.cfg.classes)
    (hmore : s.j + 1 < s.cfg.classes ∨ s.i + 1 < s.cfg.tiling) :
    s.nextElement.i < s.cfg.tiling ∧ s.nextElement.j < s.cfg.classes
      ∧ s.nextElement.i * s.cfg.classes + s.nextElement.j = s.i * s.cfg.classes + s.j + 1 := by
  unfold State.nextElement
  split
  next hj' => exact ⟨hi, hj', rfl⟩
  next hj' =>
    have hi' := hmore.resolve_left hj'
    have hrow : (s.i + 1) * s.cfg.classes + 0 = s.i * s.cfg.classes + s.j + 1 := by
      rw [Nat.succ_mul]
      omega
    rw [if_pos hi']
    exact ⟨hi', s.cfg.classes_pos, hrow⟩

/-! ### The reduction of one output element (R144) -/

/-- With no turn scheduled a step is the operation the selector picks (R104, log 6). -/
theorem step_of_selects {i : Instr} (hsched : s.sched = []) (h : s.Selects i) : step s = exec i s := by
  simp only [step, State.takeTurn, hsched, State.fetch_eq_ok_iff.2 h]

theorem run_snoc (h : Host.Core.run core n s = .next t) (hstep : step t = .next u) :
    Host.Core.run core (n + 1) s = .next u := by
  rw [run_add h, run_succ hstep, run_zero]

/-- The state in which `n` groups of the current output element have been added to its offset. -/
def State.atGroup (s : State) (n : Nat) : State := { s with
  acc := wrap 32 (sval (s.offAt s.j) + ∑ g ∈ Finset.range n, gsum s.cfg (s.inpAt s.i) (s.wgtAt s.j) g)
  g := min n (s.cfg.ng - 1)
  cs := if n < s.cfg.ng then .macs else .wb }

theorem State.atGroup_ng_acc : (s.atGroup s.cfg.ng).acc = wrap 32 (s.exactSum s.i s.j) := by
  rw [State.atGroup, sum_gsum_ng, State.exactSum]

/-- ACCINIT reaches group 0 (R140). -/
theorem step_atGroup_zero (hsched : s.sched = []) (hph : s.phase = .computeTile) (hcs : s.cs = .init)
    (hj : s.j < s.cfg.classes) : step s = .next (s.atGroup 0) := by
  rw [step_of_selects (i := .accinit) hsched ⟨hph, hcs⟩]
  refine (execAccinit_of_init hph hcs hj).trans ?_
  simp [State.atGroup, s.cfg.ng_pos, wrap_sval]

/-- Each MAC adds one more group (R141). -/
theorem step_atGroup_succ (hsched : s.sched = []) (hph : s.phase = .computeTile) (hi : s.i < s.cfg.tiling)
    (hj : s.j < s.cfg.classes) (hn : n < s.cfg.ng) : step (s.atGroup n) = .next (s.atGroup (n + 1)) := by
  have hcs : (s.atGroup n).cs = .macs := if_pos hn
  have hg : min n (s.cfg.ng - 1) = n := by omega
  have hg' : min (n + 1) (s.cfg.ng - 1) = if n + 1 < s.cfg.ng then n + 1 else n := by split <;> omega
  rw [step_of_selects (s := s.atGroup n) (i := .mac) hsched ⟨hph, hcs⟩]
  refine (execMac_of_macs (s := s.atGroup n) hph hcs hi hj).trans ?_
  simp only [State.atGroup, hg, hg', Finset.sum_range_succ, ← add_assoc, accAdd, wrap_sval_wrap_add]
  rfl

/-- ACCINIT and `n` MACs (R109). -/
theorem run_atGroup (hsched : s.sched = []) (hph : s.phase = .computeTile) (hcs : s.cs = .init)
    (hi : s.i < s.cfg.tiling) (hj : s.j < s.cfg.classes) (hn : n ≤ s.cfg.ng) :
    Host.Core.run core (n + 1) s = .next (s.atGroup n) := by
  induction n with
  | zero => exact run_snoc (run_zero s) (step_atGroup_zero hsched hph hcs hj)
  | succ n ih => exact run_snoc (ih (Nat.le_of_succ_le hn)) (step_atGroup_succ hsched hph hi hj hn)

/-- The state after `DOT`: the reduced element written back, the counters on the next one (R144). -/
def State.afterDot (s : State) : State :=
  { (s.atGroup s.cfg.ng).writeOut s.i s.j (wrap 32 (s.exactSum s.i s.j)) with cs := .init }.nextElement

/-- `DOT`: ACCINIT, one MAC per group, ACCWB (R109, R144). -/
theorem run_afterDot (hsched : s.sched = []) (hph : s.phase = .computeTile) (hcs : s.cs = .init)
    (hi : s.i < s.cfg.tiling) (hj : s.j < s.cfg.classes) :
    Host.Core.run core (s.cfg.ng + 2) s = .next s.afterDot := by
  have hwb : (s.atGroup s.cfg.ng).cs = .wb := if_neg (Nat.lt_irrefl _)
  refine run_snoc (run_atGroup hsched hph hcs hi hj le_rfl) ?_
  rw [step_of_selects (s := s.atGroup s.cfg.ng) (i := .accwb) hsched ⟨hph, hwb⟩, State.afterDot, ← State.atGroup_ng_acc]
  exact execAccwb_of_wb hph hwb hi hj

/-- `DOT` writes the wrapped exact sum to its element and to no other (R144). -/
theorem State.read_afterDot (a : Nat) :
    s.afterDot.mem.out.read .out a
      = if a = bufIndex s.cfg .out s.i s.j then wrap 32 (s.exactSum s.i s.j) else s.mem.out.read .out a := by
  rw [State.afterDot, State.nextElement_mem]
  exact Buf.read_write ..

theorem State.afterDot_phase (hph : s.phase = .computeTile) :
    s.afterDot.phase = if s.j + 1 < s.cfg.classes ∨ s.i + 1 < s.cfg.tiling then .computeTile else .storeTile := by
  rw [← hph]
  exact State.nextElement_phase_cnt.1

/-- The count starts at 0 when the tile is to be stored (R34, R142). -/
theorem State.afterDot_cnt (hph : s.phase = .computeTile) :
    s.afterDot.cnt = if s.afterDot.phase = .storeTile then 0 else s.cnt := by
  have hcnt : s.afterDot.cnt = if s.j + 1 < s.cfg.classes ∨ s.i + 1 < s.cfg.tiling then s.cnt else 0 :=
    State.nextElement_phase_cnt.2
  rw [hcnt, State.afterDot_phase hph]
  split <;> rfl

theorem State.afterDot_position (hi : s.i < s.cfg.tiling) (hj : s.j < s.cfg.classes)
    (hmore : s.j + 1 < s.cfg.classes ∨ s.i + 1 < s.cfg.tiling) :
    s.afterDot.i < s.cfg.tiling ∧ s.afterDot.j < s.cfg.classes
      ∧ s.afterDot.i * s.cfg.classes + s.afterDot.j = s.i * s.cfg.classes + s.j + 1 :=
  State.nextElement_position hi hj hmore

/-- `DOT` changes what the compute phase may change, and ends before an `ACCINIT` (R144). -/
theorem State.afterDot_sameBesideCompute : s.SameBesideCompute s.afterDot := by
  have hwritten : s.SameBesideCompute
      { (s.atGroup s.cfg.ng).writeOut s.i s.j (wrap 32 (s.exactSum s.i s.j)) with cs := .init } := rfl
  exact hwritten.trans (State.nextElement_sameBesideCompute rfl)

/-! ### The output elements of a tile (R145) -/

/-- From `s`, at the start of the compute phase, the first `n` output elements of the tile have been computed (R145). -/
structure State.ComputedTo (s : State) (n : Nat) (t : State) : Prop where
  frame : s.SameBesideCompute t
  filled : ∀ i < s.cfg.tiling, ∀ j < s.cfg.classes, i * s.cfg.classes + j < n →
    t.outAt i j = wrap 32 (s.exactSum i j)
  more : n < s.cfg.tiling * s.cfg.classes →
    t.phase = .computeTile ∧ t.i < s.cfg.tiling ∧ t.j < s.cfg.classes ∧ t.i * s.cfg.classes + t.j = n
  last : n = s.cfg.tiling * s.cfg.classes → t.phase = .storeTile ∧ t.cnt = 0

theorem State.computedTo_zero (hph : s.phase = .computeTile) (hcs : s.cs = .init) (hi : s.i = 0) (hj : s.j = 0) :
    s.ComputedTo 0 s where
  frame := by rw [State.SameBesideCompute, ← hcs]
  filled _ _ _ _ h := absurd h (Nat.not_lt_zero _)
  more _ := ⟨hph, hi ▸ s.cfg.tiling_pos, hj ▸ s.cfg.classes_pos, by simp [hi, hj]⟩
  last h := absurd h (Nat.mul_pos s.cfg.tiling_pos s.cfg.classes_pos).ne

/-- One more `DOT` computes one more element. -/
theorem State.ComputedTo.succ (h : s.ComputedTo n t) (hsched : s.sched = [])
    (hn : n < s.cfg.tiling * s.cfg.classes) :
    Host.Core.run core (s.cfg.ng + 2) t = .next t.afterDot ∧ s.ComputedTo (n + 1) t.afterDot := by
  obtain ⟨hph, hi, hj, hpos⟩ := h.more hn
  have hcfg := h.frame.cfg
  have hleft : t.j + 1 < t.cfg.classes ∨ t.i + 1 < t.cfg.tiling ↔ n + 1 < s.cfg.tiling * s.cfg.classes := by
    rw [hcfg, elementsLeft_iff hi hj, hpos]
  have hphase := State.afterDot_phase hph
  have hrun := run_afterDot (h.frame.sched.trans hsched) hph h.frame.cs (hcfg ▸ hi) (hcfg ▸ hj)
  refine ⟨hcfg ▸ hrun, h.frame.trans State.afterDot_sameBesideCompute, fun i hi' j hj' hlt => ?_,
    fun hmore => ?_, fun hlast => ?_⟩
  · rw [State.outAt, State.read_afterDot, State.afterDot_sameBesideCompute.cfg, hcfg]
    split
    next heq =>
      obtain ⟨rfl, rfl⟩ := bufIndex_inj hj' hj heq
      rw [h.frame.exactSum]
    next hne =>
      have hbefore : i * s.cfg.classes + j ≠ t.i * s.cfg.classes + t.j := hne
      rw [← h.filled i hi' j hj' (by omega), State.outAt, hcfg]
  · rw [if_pos (hleft.2 hmore)] at hphase
    obtain ⟨hi', hj', hpos'⟩ := State.afterDot_position (hcfg ▸ hi) (hcfg ▸ hj) (hleft.2 hmore)
    rw [hcfg] at hi' hj' hpos'
    exact ⟨hphase, hi', hj', hpos ▸ hpos'⟩
  · rw [if_neg (mt hleft.1 hlast.not_lt)] at hphase
    exact ⟨hphase, (State.afterDot_cnt hph).trans (if_pos hphase)⟩

/-- `n` `DOT`s compute `n` elements. -/
theorem run_computedTo (hsched : s.sched = []) (h : s.ComputedTo 0 s) (hn : n ≤ s.cfg.tiling * s.cfg.classes) :
    ∃ t, Host.Core.run core (n * (s.cfg.ng + 2)) s = .next t ∧ s.ComputedTo n t := by
  induction n with
  | zero => exact ⟨s, by rw [Nat.zero_mul, run_zero], h⟩
  | succ n ih =>
    obtain ⟨t, hrun, ht⟩ := ih (Nat.le_of_succ_le hn)
    obtain ⟨hdot, hnext⟩ := ht.succ hsched hn
    exact ⟨t.afterDot, by rw [Nat.succ_mul, run_add hrun, hdot], hnext⟩

end

/-- Settles O18, under the selector of its row. -/
theorem accinitLoadsOffset : Obligations.AccinitLoadsOffset := by
  refine ⟨(selector_statement .accinit).1, fun s hph hcs hj => ?_, fun s h => ?_⟩
  · exact (execAccinit_of_init hph hcs hj).trans (by rw [BitVec.signExtend_eq, State.offAt])
  · exact exec_of_fetch_ne (mt State.fetch_eq_ok_iff.1 h)

/-- Settles O19: the group sum is by definition the sum over the lanes (`gsum_eq_sum_range`). -/
theorem macAddsGroupSum : Obligations.MacAddsGroupSum :=
  ⟨(selector_statement .mac).1, fun _ => execMac_of_macs, fun _ h => exec_of_fetch_ne (mt State.fetch_eq_ok_iff.1 h)⟩

/-- Settles O20: the one element written is read back by the law of a buffer. -/
theorem accwbWritesBackAndAdvances : Obligations.AccwbWritesBackAndAdvances :=
  ⟨(selector_statement .accwb).1, fun _ hph hcs hi hj => ⟨_, execAccwb_of_wb hph hcs hi hj, fun _ => Buf.read_write ..⟩,
    fun _ h => exec_of_fetch_ne (mt State.fetch_eq_ok_iff.1 h)⟩

/-- Settles O43, from the state that `DOT` reaches. -/
theorem dotLeavesTheWrappedSum : Obligations.DotLeavesTheWrappedSum := by
  intro s hph hcs hsched hi hj
  refine ⟨s.afterDot, run_afterDot hsched hph hcs hi hj, ?_, fun a ha => ?_, ?_, ?_⟩
  · rw [State.outAt, State.read_afterDot, State.afterDot_sameBesideCompute.cfg, if_pos rfl]
    rfl
  · rw [State.read_afterDot, if_neg ha]
  · exact State.afterDot_phase hph
  · rw [← State.afterDot_cnt hph]
    exact State.afterDot_sameBesideCompute

/-- Settles O44: one `DOT` for each element of the tile. -/
theorem computeTileFillsTheOutputBuffer : Obligations.ComputeTileFillsTheOutputBuffer := by
  intro s hph hcs hsched hi hj
  obtain ⟨t, hrun, ht⟩ := run_computedTo hsched (State.computedTo_zero hph hcs hi hj) le_rfl
  obtain ⟨hstore, hcnt⟩ := ht.last rfl
  refine ⟨t, hrun, fun i hi j hj => ht.filled i hi j hj ?_, ?_⟩
  · exact bufIndex_lt (c := s.cfg) (b := .out) (bufHolds_one hi hj)
  · rw [← hstore, ← hcnt]
    exact ht.frame

/-- Settles O45: one addend after another, each taken in before wrapping. -/
theorem wrappingEachStepIsWrappingOnce : Obligations.WrappingEachStepIsWrappingOnce := by
  refine ⟨fun n a l => ?_, fun n m z h => wrap_sval_wrap h z⟩
  induction l generalizing a with
  | nil => simp
  | cons z l ih => rw [List.foldl_cons, wrap_sval_wrap_add, ih, List.sum_cons, add_assoc]

/-- Settles O46: each group continues where the one before it ended, and the last reaches `FEAT`. -/
theorem groupsPartitionTheFeatures : Obligations.GroupsPartitionTheFeatures := sum_gsum_ng

/-- Settles O47, from the ranges of the two factors. -/
theorem productRange : Obligations.ProductRange := by
  refine ⟨fun x w => ?_, by decide, by decide⟩
  obtain ⟨hlo, hhi⟩ := prod_bounds x w
  exact ⟨rfl, hlo, hhi, sval_wrap_eq_self (by decide) (by omega) (by omega)⟩

/-- Settles O48: a group of 32 lanes has at most 32 products. -/
theorem groupSumRange : Obligations.GroupSumRange := by
  intro c x w g
  refine ⟨gsum_eq_sum_Ico c x w g, fun hlanes => ?_⟩
  have hcard : (Finset.Ico (g * c.lanes) (min ((g + 1) * c.lanes) c.feat)).card ≤ 32 := by
    rw [Nat.card_Ico, hlanes]
    omega
  obtain ⟨hlo, hhi⟩ := sum_prod_bounds x w hcard
  rw [← gsum_eq_sum_Ico] at hlo hhi
  exact ⟨by omega, by omega, sval_wrap_eq_self (by decide) (by omega) (by omega)⟩

/-- Settles O49: the wrapping tree is the image of the exact one, because wrapping respects addition. -/
theorem adderTreeIsThePlainSum : Obligations.AdderTreeIsThePlainSum := by
  intro l acc hl
  have hexact : treeLevels (Nat.clog 2 l.length) l = [l.sum] :=
    treeLevels_eq_sum (List.length_pos_iff.2 hl) (Nat.le_pow_clog Nat.one_lt_two _)
  refine ⟨hexact, ?_, wrap_sval_add acc l.sum⟩
  rw [treeLevels_map wrap_add, hexact, List.map_singleton]

/-- Settles O51: `FEAT` products stay within `FEAT` times the range of one, which `ACC_FITS` bounds. -/
theorem accFitsKeepsSumsExact : Obligations.AccFitsKeepsSumsExact := by
  intro c x w off hfits
  have hfeat := c.accFits_iff.1 hfits
  obtain ⟨hlo, hhi⟩ := sum_prod_bounds x w (Finset.card_range c.feat).le
  have hpos : 0 < c.feat := Nat.zero_lt_of_lt (c.group_lt_feat c.ng_pos)
  exact ⟨⟨by omega, by omega⟩, sval_wrap_eq_self (n := 32) (by decide)⟩

end Sys2Proof.Machine

/-! # Proofs: the Stream Packer (43_stream_packer.md) -/

namespace Sys2Proof.Machine

open Sys2Proof

section
variable {s : State}

/-! ### The packet pushed (R98, R156, R158) -/

/-- Two elements of 32 bits fill a payload, the second above the first (R156). -/
theorem pack_pair (y0 y1 : Wide) : pack 32 [y0, y1] = y1 ++ y0 := by
  have hlow : lane (y1 ++ y0) 32 0 = y0 := BitVec.extractLsb'_append_eq_right
  have hhigh : lane (y1 ++ y0) 32 1 = y1 := BitVec.extractLsb'_append_eq_left
  have hlanes : unpack 32 2 (y1 ++ y0) = [y0, y1] := congrArg₂ (fun a b => [a, b]) hlow hhigh
  rw [← hlanes, pack_unpack rfl]

theorem State.outPacket_eq (y0 y1 : Wide) :
    s.outPacket y0 y1 =
      { data := y1 ++ y0, mask := s.cfg.outMask, id := s.cfg.outId, last := decide (s.ocnt = s.cfg.osSize - 1) } := by
  rw [State.outPacket, pack_pair, lastFlag]

/-! ### STOUT (R158) -/

/-- The count moves on, or the next tile is loaded, or the run is done, as an equation of the whole state (R34, R158). -/
theorem State.countPacket_endTile (total tiles : Nat) :
    s.countPacket total
        (if s.t + 1 < tiles then { s.enter .loadTile with t := s.t + 1 } else { s with phase := .done }) =
      { s with
        phase := if s.cnt + 1 < total then s.phase else if s.t + 1 < tiles then .loadTile else .done
        t := if s.cnt + 1 < total then s.t else if s.t + 1 < tiles then s.t + 1 else s.t
        cnt := if s.cnt + 1 < total then s.cnt + 1 else if s.t + 1 < tiles then 0 else s.cnt } := by
  unfold State.countPacket
  split
  · rfl
  · split <;> rfl

/-- STOUT on a channel with room, as an equation of the whole state (R158). -/
theorem execStout_of_hasRoom (hph : s.phase = .storeTile) (hroom : s.hasRoom = true)
    (hcnt : s.cnt < s.cfg.tileOutPkts) :
    execStout s = .next { s with
      outCh := s.outCh ++ [s.outPacket (s.outAt (s.cnt / s.cfg.cpp) (2 * (s.cnt % s.cfg.cpp)))
        (s.outAt (s.cnt / s.cfg.cpp) (2 * (s.cnt % s.cfg.cpp) + 1))]
      ocnt := s.ocnt + 1
      phase := if s.cnt + 1 < s.cfg.tileOutPkts then .storeTile else if s.t + 1 < s.cfg.nt then .loadTile else .done
      t := if s.cnt + 1 < s.cfg.tileOutPkts then s.t else if s.t + 1 < s.cfg.nt then s.t + 1 else s.t
      cnt := if s.cnt + 1 < s.cfg.tileOutPkts then s.cnt + 1 else if s.t + 1 < s.cfg.nt then 0 else s.cnt } := by
  rw [← hph]
  exact (if_pos ⟨hph, hroom⟩).trans <| (State.within_of_holds (bufHolds_out hcnt)).trans <|
    congrArg _ (State.countPacket_endTile _ _)

theorem State.enabledOp_stout_iff : s.enabledOp = some .stout ↔ s.phase = .storeTile ∧ s.hasRoom = true :=
  State.enabledOp_eq_some_iff_selects

/-! ### The end-of-stream flag (R159) -/

/-- In `STORE_TILE` the global count stands at its last value exactly on the last packet of the last tile (R55, R159). -/
theorem State.Inv.ocnt_eq_pred_osSize_iff (h : s.Inv) (hph : s.phase = .storeTile) :
    s.ocnt = s.cfg.osSize - 1 ↔ s.t = s.cfg.nt - 1 ∧ s.cnt = s.cfg.tileOutPkts - 1 := by
  obtain ⟨-, hcnt, -, hocnt⟩ := (State.phaseInv_storeTile hph).1 h.phaseInv
  have hsize : s.cfg.osSize = (s.cfg.nt - 1) * s.cfg.tileOutPkts + s.cfg.tileOutPkts := by
    rw [s.cfg.osSize_eq, ← Nat.succ_mul, Nat.succ_eq_add_one, Nat.sub_add_cancel s.cfg.nt_pos]
  rw [hocnt, hsize]
  rcases (Nat.le_sub_one_of_lt h.tile).lt_or_eq with ht | ht
  · have hbefore : (s.t + 1) * s.cfg.tileOutPkts ≤ (s.cfg.nt - 1) * s.cfg.tileOutPkts := Nat.mul_le_mul_right _ ht
    rw [Nat.succ_mul] at hbefore
    omega
  · rw [ht]
    omega

end

/-- Settles O21: the two outputs packed are the two halves of the payload. -/
theorem stoutPushesTwoOutputs : Obligations.StoutPushesTwoOutputs := by
  refine ⟨fun x => decode_eq_ok_iff.2 (by revert x; decide), fun s hph hroom hcnt => ?_, fun s h => ?_⟩
  · exact (execStout_of_hasRoom hph hroom hcnt).trans (by rw [State.outPacket_eq]; rfl)
  · exact disabledOperationChangesNothing s .stout (mt State.enabledOp_stout_iff.1 h)

/-- Settles O31, from where the invariant puts the global count. -/
theorem lastFlagMarksTheFinalPacket : Obligations.LastFlagMarksTheFinalPacket := by
  intro s h hph hroom
  obtain ⟨-, hcnt, -⟩ := (State.phaseInv_storeTile hph).1 h.phaseInv
  refine ⟨_, _, execStout_of_hasRoom hph hroom hcnt, rfl, ?_⟩
  rw [← h.ocnt_eq_pred_osSize_iff hph, and_self]
  exact decide_eq_true_iff

end Sys2Proof.Machine

/-! # Proofs: the sequencer (44_sequencer.md) -/

namespace Sys2Proof.Machine

open Sys2Proof

section
variable {w r n : Nat} {b : Buf w} {S : Nat → Payload} {s t : State} {i : Instr} {c : Config}

/-! ### The packets that a load phase has put into a buffer (R127, R132) -/

/-- Element `e` of packet `q` after the payload `d` of packet `n` was written, `r` elements to a packet (R78). -/
theorem Buf.read_writeRun_packet (id : BufId) (n q : Nat) {e : Nat} (he : e < r) (d : Payload) (b : Buf w) :
    (b.writeRun (r * n) (unpack w r d)).read id (r * q + e) = if q = n then lane d w e else b.read id (r * q + e) := by
  rw [Buf.read_writeRun_unpack]
  rcases Nat.lt_trichotomy q n with h | rfl | h
  · have hbelow : r * (q + 1) ≤ r * n := Nat.mul_le_mul_left r h
    rw [Nat.mul_succ] at hbelow
    rw [if_neg (by omega), if_neg h.ne]
  · rw [if_pos (by omega), if_pos rfl, Nat.add_sub_cancel_left]
  · have habove : r * (n + 1) ≤ r * q := Nat.mul_le_mul_left r h
    rw [Nat.mul_succ] at habove
    rw [if_neg (by omega), if_neg h.ne']

/-- The buffer holds the first `n` packets of the stream `S`, `r` elements of each, one packet after another. -/
def Buf.HoldsPackets (b : Buf w) (id : BufId) (r : Nat) (S : Nat → Payload) (n : Nat) : Prop :=
  ∀ q < n, ∀ e < r, b.read id (r * q + e) = lane (S q) w e

/-- Writing packet `n` behind the first `n` ones. -/
theorem Buf.HoldsPackets.succ {id : BufId} {d : Payload} (h : b.HoldsPackets id r S n) (hd : d = S n) :
    (b.writeRun (r * n) (unpack w r d)).HoldsPackets id r S (n + 1) := by
  intro q hq e he
  rw [Buf.read_writeRun_packet id n q he]
  split
  next heq => rw [hd, heq]
  next hne => exact h q (by omega) e he

/-- The offsets of the first `n` packets, by class (R127). -/
theorem State.offTracked_iff :
    (∀ j < 2 * n, s.offAt j = refOff S j) ↔ s.mem.off.HoldsPackets .off 2 S n := by
  have hoff (j : Nat) : s.offAt j = s.mem.off.read .off j := by rw [State.offAt, bufIndex, Nat.zero_mul, Nat.zero_add]
  constructor
  · intro h q hq e he
    have hdiv : (2 * q + e) / 2 = q := by omega
    have hmod : (2 * q + e) % 2 = e := by omega
    rw [← hoff, h _ (by omega), refOff, hdiv, hmod]
  · intro h j hj
    have := h (j / 2) (by omega) (j % 2) (by omega)
    rwa [Nat.div_add_mod, ← hoff] at this

theorem State.offLoaded_iff : s.offLoaded S ↔ s.mem.off.HoldsPackets .off 2 S s.cfg.offPkts := by
  rw [← State.offTracked_iff, State.offLoaded, s.cfg.classes_eq, Config.offPkts]

/-- An element of a row of `FEAT` elements lies in a packet of its row (R124, R131). -/
theorem rowPacket_lt {rows i k : Nat} (hi : i < rows) (hk : k < c.feat) : i * c.fpp + k / 8 < rows * c.fpp := by
  have hfeat := c.feat_eq
  calc i * c.fpp + k / 8 < (i + 1) * c.fpp := by rw [Nat.succ_mul]; omega
    _ ≤ rows * c.fpp := Nat.mul_le_mul_right _ hi

/-- A property of the elements of rows of `FEAT` elements, eight to a packet, is one of the packets and their lanes (R124,
R131). -/
theorem forall_rowPackets_iff {P : Nat → Nat → Prop} {rows : Nat} (hn : n ≤ rows * c.fpp) :
    (∀ i < rows, ∀ k < c.feat, i * c.fpp + k / 8 < n → P (i * c.fpp + k / 8) (k % 8)) ↔
      ∀ q < n, ∀ e < 8, P q e := by
  constructor
  · intro h q hq e he
    have hrow : q / c.fpp < rows := (Nat.div_lt_iff_lt_mul c.fpp_pos).2 (by omega)
    have hfeat := c.feat_eq
    have hpkt := Nat.mod_lt q c.fpp_pos
    have hdiv : (8 * (q % c.fpp) + e) / 8 = q % c.fpp := by omega
    have hmod : (8 * (q % c.fpp) + e) % 8 = e := by omega
    have := h (q / c.fpp) hrow (8 * (q % c.fpp) + e) (by omega)
    rw [hdiv, hmod, Nat.div_add_mod'] at this
    exact this hq
  · exact fun h i _ k _ hlt => h _ hlt _ (Nat.mod_lt k (by decide))

/-- The linear index of an element, by its packet and lane (R62, R63, R78). -/
theorem rowIndex_eq (i k : Nat) : i * c.feat + k = 8 * (i * c.fpp + k / 8) + k % 8 := by
  rw [c.feat_eq, Nat.mul_left_comm]
  omega

/-- Packet `n` of a load phase starts at the element `8n` (R124, R131). -/
theorem bufIndex_rowOf_pktOf {id : BufId} (h : bufCols c id = c.feat) :
    bufIndex c id (rowOf n c.fpp) (8 * pktOf n c.fpp) = 8 * n := by
  rw [bufIndex, h, rowOf, pktOf, c.feat_eq, Nat.mul_left_comm, ← Nat.mul_add, Nat.div_add_mod']

/-- The weights of the first `n` packets, by class and feature (R127). -/
theorem State.wgtTracked_iff (hn : n ≤ s.cfg.wgtPkts) :
    (∀ j < s.cfg.classes, ∀ k < s.cfg.feat, j * s.cfg.fpp + k / 8 < n → s.wgtAt j k = refWgt s.cfg S j k) ↔
      s.mem.wgt.HoldsPackets .wgt 8 (fun q => S (s.cfg.offPkts + q)) n := by
  rw [Buf.HoldsPackets, ← forall_rowPackets_iff hn]
  simp only [State.wgtAt, bufIndex, bufCols, rowIndex_eq, refWgt, Nat.add_assoc]

theorem State.wgtLoaded_iff :
    s.wgtLoaded S ↔ s.mem.wgt.HoldsPackets .wgt 8 (fun q => S (s.cfg.offPkts + q)) s.cfg.wgtPkts := by
  rw [← State.wgtTracked_iff le_rfl]
  exact ⟨fun h j hj k hk _ => h j hj k hk, fun h j hj k hk => h j hj k hk (rowPacket_lt hj hk)⟩

/-- The inputs of the first `n` packets of the tile, by row and feature (R132). -/
theorem State.inpTracked_iff (hn : n ≤ s.cfg.tileInPkts) :
    (∀ i < s.cfg.tiling, ∀ k < s.cfg.feat, i * s.cfg.fpp + k / 8 < n →
        s.inpAt i k = refInp s.cfg S (s.t * s.cfg.tiling + i) k) ↔
      s.mem.inp.HoldsPackets .inp 8
        (fun q => S (s.cfg.offPkts + s.cfg.wgtPkts + s.t * s.cfg.tileInPkts + q)) n := by
  rw [Buf.HoldsPackets, ← forall_rowPackets_iff hn]
  simp only [State.inpAt, bufIndex, bufCols, rowIndex_eq, refInp, Nat.add_mul, Config.tileInPkts, Nat.add_assoc,
    Nat.mul_assoc]

theorem State.tileLoaded_iff :
    s.tileLoaded S ↔ s.mem.inp.HoldsPackets .inp 8
      (fun q => S (s.cfg.offPkts + s.cfg.wgtPkts + s.t * s.cfg.tileInPkts + q)) s.cfg.tileInPkts := by
  rw [← State.inpTracked_iff le_rfl]
  exact ⟨fun h i hi k hk _ => h i hi k hk, fun h i hi k hk => h i hi k hk (rowPacket_lt hi hk)⟩

/-! ### The reduction against the closed form (R140, R141, R147) -/

theorem refDot_eq_sum (c : Config) (S : Nat → Payload) (b j n : Nat) :
    refDot c S b j n = ∑ k ∈ Finset.range n, prod (refInp c S b k) (refWgt c S j k) := rfl

/-- A group of products that are those of the stream takes the sum to where the next group starts (R137, R148). -/
theorem refDot_add_gsum {x v : Nat → Narrow} {b j g : Nat} (hg : g < c.ng)
    (hx : ∀ k < c.feat, x k = refInp c S b k) (hv : ∀ k < c.feat, v k = refWgt c S j k) :
    refDot c S b j (min (g * c.lanes) c.feat) + gsum c x v g = refDot c S b j (min ((g + 1) * c.lanes) c.feat) := by
  have hstart : min (g * c.lanes) c.feat = g * c.lanes := Nat.min_eq_left (c.group_lt_feat hg).le
  have hle : g * c.lanes ≤ min ((g + 1) * c.lanes) c.feat :=
    Nat.le_min.2 ⟨Nat.mul_le_mul_right _ g.le_succ, (c.group_lt_feat hg).le⟩
  have hgroup : gsum c x v g = ∑ k ∈ Finset.Ico (g * c.lanes) (min ((g + 1) * c.lanes) c.feat),
      prod (refInp c S b k) (refWgt c S j k) := by
    rw [gsum_eq_sum_Ico]
    refine Finset.sum_congr rfl fun k hk => ?_
    have hfeat : k < c.feat := (Nat.lt_min.1 (Finset.mem_Ico.1 hk).2).2
    rw [hx k hfeat, hv k hfeat]
  rw [hgroup, hstart, refDot_eq_sum, refDot_eq_sum, Finset.sum_range_add_sum_Ico _ hle]

end

section
variable {s t : State} {i : Instr} {S : Nat → Payload}

/-! ### Every operation keeps the buffers in agreement with the stream (R127, R132, R144, R145) -/

/-- The packet at the head of the input channel is the one the invocation pops next (R71). -/
theorem State.Feeds.head {p : Packet} {rest : List Packet} (h : s.Feeds S s.icnt) (hc : s.inCh = p :: rest)
    (hlt : s.icnt < s.cfg.isSize) : p.data = S s.icnt :=
  h 0 p (by simp [State.pending, hc]) hlt

theorem execLdoff_buffersTrack (hinv : s.Inv) (hfeeds : s.Feeds S s.icnt) (hb : s.buffersTrack S)
    (he : execLdoff s = .next t) : t.buffersTrack S := by
  rcases execLdoff_next he with rfl | ⟨p, rest, s', hph, hc, -, rfl, rfl⟩
  · exact hb
  obtain ⟨-, hcnt, -, hicnt, -⟩ := (State.phaseInv_loadOffsets hph).1 hinv.phaseInv
  have hpacket : p.data = S s.cnt := hicnt ▸ hfeeds.head hc (by rw [hicnt, s.cfg.isSize_eq]; omega)
  have hstart : bufIndex s.cfg .off 0 (2 * s.cnt) = 2 * s.cnt := by rw [bufIndex, Nat.zero_mul, Nat.zero_add]
  have hheld := (State.offTracked_iff.1 ((State.buffersTrack_loadOffsets hph).1 hb)).succ hpacket
  rw [← hstart] at hheld
  refine State.countPacket_intro (fun _ => ?_) (fun (hle : s.cfg.offPkts ≤ s.cnt + 1) => ?_)
  · exact Iff.mpr (State.buffersTrack_loadOffsets hph) (State.offTracked_iff.2 hheld)
  · have hlast : s.cnt + 1 = s.cfg.offPkts := Nat.le_antisymm hcnt hle
    rw [hlast] at hheld
    exact (State.buffersTrack_loadWeights rfl).2
      ⟨State.offLoaded_iff.2 hheld, fun _ _ _ _ h => absurd h (Nat.not_lt_zero _)⟩

theorem execLdwgt_buffersTrack (hinv : s.Inv) (hfeeds : s.Feeds S s.icnt) (hb : s.buffersTrack S)
    (he : execLdwgt s = .next t) : t.buffersTrack S := by
  rcases execLdwgt_next he with rfl | ⟨p, rest, s', hph, hc, -, rfl, rfl⟩
  · exact hb
  obtain ⟨-, hcnt, -, hicnt, -⟩ := (State.phaseInv_loadWeights hph).1 hinv.phaseInv
  obtain ⟨hoff, hwgt⟩ := (State.buffersTrack_loadWeights hph).1 hb
  have hpacket : p.data = S (s.cfg.offPkts + s.cnt) :=
    hicnt ▸ hfeeds.head hc (by rw [hicnt, s.cfg.isSize_eq]; omega)
  have hheld := ((State.wgtTracked_iff hcnt.le).1 hwgt).succ (S := fun q => S (s.cfg.offPkts + q)) hpacket
  rw [← bufIndex_rowOf_pktOf (c := s.cfg) (id := .wgt) rfl] at hheld
  refine State.countPacket_intro (fun _ => ?_) (fun (hle : s.cfg.wgtPkts ≤ s.cnt + 1) => ?_)
  · exact Iff.mpr (State.buffersTrack_loadWeights hph) ⟨hoff, Iff.mpr (State.wgtTracked_iff hcnt) hheld⟩
  · have hlast : s.cnt + 1 = s.cfg.wgtPkts := Nat.le_antisymm hcnt hle
    rw [hlast] at hheld
    exact (State.buffersTrack_loadTile rfl).2
      ⟨hoff, State.wgtLoaded_iff.2 hheld, fun _ _ _ _ h => absurd h (Nat.not_lt_zero _)⟩

theorem execLdin_buffersTrack (hinv : s.Inv) (hfeeds : s.Feeds S s.icnt) (hb : s.buffersTrack S)
    (he : execLdin s = .next t) : t.buffersTrack S := by
  rcases execLdin_next he with rfl | ⟨p, rest, s', hph, hc, -, rfl, rfl⟩
  · exact hb
  obtain ⟨-, hcnt, hicnt, -⟩ := (State.phaseInv_loadTile hph).1 hinv.phaseInv
  obtain ⟨hoff, hwgt, hinp⟩ := (State.buffersTrack_loadTile hph).1 hb
  have hlt : s.icnt < s.cfg.isSize := (positionDecidesTheFormat s hinv).2.2 (State.fetch_eq_ok_iff.2 hph) |>.2
  have hpacket := hicnt ▸ hfeeds.head hc hlt
  have hheld := ((State.inpTracked_iff hcnt.le).1 hinp).succ
    (S := fun q => S (s.cfg.offPkts + s.cfg.wgtPkts + s.t * s.cfg.tileInPkts + q)) hpacket
  rw [← bufIndex_rowOf_pktOf (c := s.cfg) (id := .inp) rfl] at hheld
  refine State.countPacket_intro (fun _ => ?_) (fun (hle : s.cfg.tileInPkts ≤ s.cnt + 1) => ?_)
  · exact Iff.mpr (State.buffersTrack_loadTile hph) ⟨hoff, hwgt, Iff.mpr (State.inpTracked_iff hcnt) hheld⟩
  · have hlast : s.cnt + 1 = s.cfg.tileInPkts := Nat.le_antisymm hcnt hle
    rw [hlast] at hheld
    refine (State.buffersTrack_computeTile rfl).2
      ⟨hoff, hwgt, State.tileLoaded_iff.2 hheld, (State.accTracks_init rfl).2 trivial, fun _ _ _ _ h => ?_⟩
    exact absurd h (by simp)

theorem execAccinit_buffersTrack (hinv : s.Inv) (hb : s.buffersTrack S) (he : execAccinit s = .next t) :
    t.buffersTrack S := by
  rcases execAccinit_next he with rfl | ⟨hph, -, -, rfl⟩
  · exact hb
  obtain ⟨-, -, hj, -⟩ := (State.phaseInv_computeTile hph).1 hinv.phaseInv
  obtain ⟨hoff, hwgt, hinp, -, hout⟩ := (State.buffersTrack_computeTile hph).1 hb
  refine Iff.mpr (State.buffersTrack_computeTile hph) ⟨hoff, hwgt, hinp, (State.accTracks_macs rfl).2 ?_, hout⟩
  simp [accLoad_eq, hoff s.j hj, refDot_eq_sum, wrap_sval]

theorem execMac_buffersTrack (hinv : s.Inv) (hb : s.buffersTrack S) (he : execMac s = .next t) :
    t.buffersTrack S := by
  rcases execMac_next he with rfl | ⟨s', hph, hcs, -, -, rfl, rfl⟩
  · exact hb
  obtain ⟨-, hi, hj, hg, -⟩ := (State.phaseInv_computeTile hph).1 hinv.phaseInv
  obtain ⟨hoff, hwgt, hinp, hacc, hout⟩ := (State.buffersTrack_computeTile hph).1 hb
  have hsum : accAdd s.acc (gsum s.cfg (s.inpAt s.i) (s.wgtAt s.j) s.g) = wrap 32 (sval (refOff S s.j)
      + refDot s.cfg S (s.t * s.cfg.tiling + s.i) s.j (min ((s.g + 1) * s.cfg.lanes) s.cfg.feat)) := by
    rw [(State.accTracks_macs hcs).1 hacc, accAdd, wrap_sval_wrap_add, add_assoc,
      refDot_add_gsum (hg hcs) (hinp s.i hi) (hwgt s.j hj)]
  split
  next =>
    exact Iff.mpr (State.buffersTrack_computeTile hph)
      ⟨hoff, hwgt, hinp, Iff.mpr (State.accTracks_macs hcs) hsum, hout⟩
  next hlast =>
    have hng : s.g + 1 = s.cfg.ng := Nat.le_antisymm (hg hcs) (Nat.le_of_not_lt hlast)
    rw [hng, Nat.min_eq_right s.cfg.feat_le_ng_lanes] at hsum
    exact Iff.mpr (State.buffersTrack_computeTile hph) ⟨hoff, hwgt, hinp, (State.accTracks_wb rfl).2 hsum, hout⟩

/-- With the current element written back, every element up to it is that of the stream (R142, R145). -/
theorem State.writeOut_tracks (hj : s.j < s.cfg.classes) (hacc : s.acc = refY s.cfg S (s.t * s.cfg.tiling + s.i) s.j)
    (hout : ∀ i < s.cfg.tiling, ∀ j < s.cfg.classes, i * s.cfg.classes + j < s.i * s.cfg.classes + s.j →
      s.outAt i j = refY s.cfg S (s.t * s.cfg.tiling + i) j) :
    ∀ i < s.cfg.tiling, ∀ j < s.cfg.classes, i * s.cfg.classes + j < s.i * s.cfg.classes + s.j + 1 →
      (s.writeOut s.i s.j s.acc).outAt i j = refY s.cfg S (s.t * s.cfg.tiling + i) j := by
  intro i hi j hj' hlt
  refine (Buf.read_write ..).trans ?_
  split
  next heq =>
    obtain ⟨rfl, rfl⟩ := bufIndex_inj hj' hj heq
    exact hacc
  next hne =>
    have hbefore : i * s.cfg.classes + j ≠ s.i * s.cfg.classes + s.j := hne
    exact hout i hi j hj' (by omega)

theorem execAccwb_buffersTrack (hinv : s.Inv) (hb : s.buffersTrack S) (he : execAccwb s = .next t) :
    t.buffersTrack S := by
  rcases execAccwb_next he with rfl | ⟨s', hph, hcs, -, rfl, rfl⟩
  · exact hb
  obtain ⟨-, hi, hj, -⟩ := (State.phaseInv_computeTile hph).1 hinv.phaseInv
  obtain ⟨hoff, hwgt, hinp, hacc, hout⟩ := (State.buffersTrack_computeTile hph).1 hb
  have hwritten := State.writeOut_tracks hj ((State.accTracks_wb hcs).1 hacc) hout
  have hinit (u : State) (h : u.cs = .init) : u.accTracks S := (State.accTracks_init h).2 trivial
  split
  next => exact Iff.mpr (State.buffersTrack_computeTile hph) ⟨hoff, hwgt, hinp, hinit _ rfl, hwritten⟩
  next hj' =>
    have hrow : (s.i + 1) * s.cfg.classes = s.i * s.cfg.classes + s.j + 1 := by
      rw [Nat.succ_mul]
      omega
    split
    next =>
      exact Iff.mpr (State.buffersTrack_computeTile hph) ⟨hoff, hwgt, hinp, hinit _ rfl, fun i hi j hj h =>
        hwritten i hi j hj (hrow ▸ h)⟩
    next hi' =>
      have hlast : s.i + 1 = s.cfg.tiling := by omega
      refine (State.buffersTrack_storeTile rfl).2 ⟨hoff, hwgt, fun i hi j hj => hwritten i hi j hj ?_⟩
      rw [← hrow, hlast]
      exact bufIndex_lt (c := s.cfg) (b := .out) (bufHolds_one hi hj)

theorem execStout_buffersTrack (hb : s.buffersTrack S) (he : execStout s = .next t) : t.buffersTrack S := by
  rcases execStout_next he with rfl | ⟨s', hph, -, -, rfl, rfl⟩
  · exact hb
  obtain ⟨hoff, hwgt, hout⟩ := (State.buffersTrack_storeTile hph).1 hb
  refine State.countPacket_intro (fun _ => ?_) (fun _ => ?_)
  · exact Iff.mpr (State.buffersTrack_storeTile hph) ⟨hoff, hwgt, hout⟩
  · split
    · exact (State.buffersTrack_loadTile rfl).2 ⟨hoff, hwgt, fun _ _ _ _ h => absurd h (Nat.not_lt_zero _)⟩
    · exact State.buffersTrack_done rfl

/-- Every operation keeps the buffers and the accumulator in agreement with the stream. -/
theorem exec_buffersTrack (hinv : s.Inv) (hfeeds : s.Feeds S s.icnt) (hb : s.buffersTrack S)
    (he : exec i s = .next t) : t.buffersTrack S := by
  cases i with
  | start =>
    rcases execStart_next he with rfl | ⟨-, -, rfl⟩
    · exact hb
    · exact (State.buffersTrack_loadOffsets rfl).2 fun _ h => absurd h (Nat.not_lt_zero _)
  | ldoff => exact execLdoff_buffersTrack hinv hfeeds hb he
  | ldwgt => exact execLdwgt_buffersTrack hinv hfeeds hb he
  | ldin => exact execLdin_buffersTrack hinv hfeeds hb he
  | accinit => exact execAccinit_buffersTrack hinv hb he
  | mac => exact execMac_buffersTrack hinv hb he
  | accwb => exact execAccwb_buffersTrack hinv hb he
  | stout => exact execStout_buffersTrack hb he
  | ack =>
    rcases execAck_next he with rfl | ⟨-, -, rfl⟩
    · exact hb
    · exact State.buffersTrack_idle rfl

/-! ### The packets pushed against the closed form (R158, R180) -/

theorem refOut_succ (c : Config) (S : Nat → Payload) (n : Nat) :
    refOut c S (n + 1) = refOut c S n ++ [refPacket c S n] := by
  simp [refOut, List.range_succ]

/-- Packet `k` of tile `t`, by its row in the tile and its place in the row (R74, R158). -/
theorem outPacket_row (c : Config) (t k : Nat) :
    (t * c.tileOutPkts + k) / c.cpp = t * c.tiling + k / c.cpp ∧ (t * c.tileOutPkts + k) % c.cpp = k % c.cpp := by
  have hpos : t * c.tileOutPkts + k = k + t * c.tiling * c.cpp := by
    rw [Config.tileOutPkts, Nat.mul_assoc, Nat.add_comm]
  rw [hpos, Nat.add_mul_div_right _ _ c.cpp_pos, Nat.add_mul_mod_self_right, Nat.add_comm]
  exact ⟨rfl, rfl⟩

/-- In `STORE_TILE` the packet about to be pushed is the next one of the closed form (R158, R180). -/
theorem State.outPacket_eq_refPacket (hinv : s.Inv) (hph : s.phase = .storeTile) (hb : s.buffersTrack S) :
    s.outPacket (s.outAt (rowOf s.cnt s.cfg.cpp) (2 * pktOf s.cnt s.cfg.cpp))
      (s.outAt (rowOf s.cnt s.cfg.cpp) (2 * pktOf s.cnt s.cfg.cpp + 1)) = refPacket s.cfg S s.ocnt := by
  obtain ⟨-, hcnt, -, hocnt⟩ := (State.phaseInv_storeTile hph).1 hinv.phaseInv
  obtain ⟨-, -, hout⟩ := (State.buffersTrack_storeTile hph).1 hb
  obtain ⟨hrow, hpkt⟩ := rowOf_lt s.cfg.cpp_pos hcnt
  obtain ⟨hdiv, hmod⟩ := outPacket_row s.cfg s.t s.cnt
  rw [← hocnt] at hdiv hmod
  have hclasses := s.cfg.classes_eq
  rw [State.outPacket, refPacket, lastFlag, hdiv, hmod, hout _ hrow _ (by omega), hout _ hrow _ (by omega)]
  rfl

/-- Only STOUT pushes, and what it pushes is the next packet of the closed form (R158, R162). -/
theorem exec_pushed {before : List Packet} (hinv : s.Inv) (hph : s.phase ≠ .idle) (hb : s.buffersTrack S)
    (hpushed : s.received ++ s.outCh = before ++ refOut s.cfg S s.ocnt) (he : exec i s = .next t) :
    t.received ++ t.outCh = before ++ refOut t.cfg S t.ocnt := by
  obtain ⟨hcfg, -, hrec, -, -, -, -, -, -, hother, -⟩ := onlyNamedOperationsWrite i s t he
  by_cases hi : i = .stout
  · subst hi
    rcases execStout_next he with rfl | ⟨s', hstore, -, -, rfl, rfl⟩
    · exact hpushed
    · have hnext : s.received ++ (s.outCh ++ [refPacket s.cfg S s.ocnt]) = before ++ refOut s.cfg S (s.ocnt + 1) := by
        rw [refOut_succ, ← List.append_assoc, hpushed, List.append_assoc]
      rw [State.outPacket_eq_refPacket hinv hstore hb]
      refine State.countPacket_intro (P := fun u => u.received ++ u.outCh = before ++ refOut u.cfg S u.ocnt)
        (fun _ => hnext) (fun _ => ?_)
      split <;> exact hnext
  · obtain ⟨hout, hocnt⟩ := hother hi
    by_cases hstart : i = .start
    · subst hstart
      rcases execStart_next he with rfl | ⟨hidle, -⟩
      · exact hpushed
      · exact absurd hidle hph
    · rw [hcfg, hrec, hout, (hocnt hstart).1, hpushed]

end

section
variable {s t u : State} {i : Instr} {S : Nat → Payload} {k l n m : Nat}

/-! ### Whose turn a step is (R179, R196) -/

/-- A step is the environment's move, or on the kernel's turn what some operation does: under a reserved selector, what an
operation that is not enabled does (R106). -/
theorem step_turn (ht : step s = .next t) :
    (∃ m rest, s.sched = .host m :: rest ∧ t = { s with sched := rest }.hostMove m)
      ∨ (s.KernelsTurn ∧ ∃ i, exec i { s with sched := s.sched.tail } = .next t) := by
  by_cases hhost : ∃ m rest, s.sched = .host m :: rest
  · obtain ⟨m, rest, hs⟩ := hhost
    rw [step_of_host hs] at ht
    cases ht
    exact .inl ⟨m, rest, hs, rfl⟩
  · rcases step_next ht with ⟨m, rest, hs, -⟩ | ⟨s', rfl, ⟨i, -, he⟩ | ⟨⟨e, hf⟩, rfl⟩⟩
    · exact absurd ⟨m, rest, hs⟩ hhost
    · exact .inr ⟨fun m rest hs => hhost ⟨m, rest, hs⟩, i, he⟩
    · refine .inr ⟨fun m rest hs => hhost ⟨m, rest, hs⟩, .start, exec_of_fetch_ne ?_⟩
      rw [hf]
      exact nofun

/-- The kernel's turn sends nothing. -/
theorem State.KernelsTurn.sentBy_take_one (h : s.KernelsTurn) (c : Config) : sentBy c (s.sched.take 1) = [] := by
  rcases hs : s.sched with _ | ⟨_ | m, rest⟩
  · rfl
  · rfl
  · exact absurd hs (h m rest)

/-! ### What a move of the environment leaves (R179) -/

/-- What has been pushed is in the channel or has been handed over, in order (R86). -/
theorem State.hostMove_pushed (s : State) (m : HostMove) :
    (s.hostMove m).received ++ (s.hostMove m).outCh = s.received ++ s.outCh := by
  rcases s.hostMove_cases m with he | ⟨_, -, he⟩ | ⟨_, _, -, hout, he⟩ | ⟨-, -, he⟩ | ⟨-, -, he⟩ <;> rw [he]
  rw [hout, List.append_assoc, List.singleton_append]

/-- A packet sent comes last in the input channel, and no other move touches it (R44). -/
theorem State.hostMove_inCh (s : State) (m : HostMove) : (s.hostMove m).inCh = s.inCh ++ sentBy s.cfg [.host m] := by
  cases m with
  | recv => rcases hout : s.outCh with _ | ⟨p, rest⟩ <;> simp [State.hostMove, hout]
  | send p => rfl
  | start => by_cases h : s.phase = .idle <;> simp [State.hostMove, h]
  | ack => by_cases h : s.phase = .done <;> simp [State.hostMove, h]

/-- HOST_RECV takes the head of the output channel, and no other move touches it (R45). -/
theorem State.hostMove_outCh (s : State) (m : HostMove) : (s.hostMove m).outCh <:+ s.outCh := by
  rcases s.hostMove_cases m with he | ⟨_, -, he⟩ | ⟨p, rest, -, hout, he⟩ | ⟨-, -, he⟩ | ⟨-, -, he⟩ <;> rw [he]
  rw [hout]
  exact List.suffix_cons p rest

/-- No move of the environment touches the configuration, the sequencer tuple, the counts, the accumulator, the buffers or
the schedule (R179). -/
theorem State.hostMove_frame (s : State) (m : HostMove) :
    s.hostMove m = { s with
      inCh := (s.hostMove m).inCh, outCh := (s.hostMove m).outCh, received := (s.hostMove m).received
      startReq := (s.hostMove m).startReq, ackReq := (s.hostMove m).ackReq } := by
  rcases s.hostMove_cases m with he | ⟨_, -, he⟩ | ⟨_, _, -, -, he⟩ | ⟨-, -, he⟩ | ⟨-, -, he⟩ <;> rw [he]

theorem State.hostMove_buffersTrack (m : HostMove) : (s.hostMove m).buffersTrack S ↔ s.buffersTrack S := by
  rw [s.hostMove_frame m]
  exact Iff.rfl

/-! ### The packets popped (R44, R71, R121) -/

/-- The packets popped in this invocation: none before START, which sets the count to 0 (R37, R165). -/
def State.popped (s : State) : Nat := if s.phase = .idle then 0 else s.icnt

theorem State.popped_of_idle (h : s.phase = .idle) : s.popped = 0 := if_pos h

theorem State.popped_of_not_idle (h : s.phase ≠ .idle) : s.popped = s.icnt := if_neg h

/-- In `n` turns from `s` to `t` the kernel has popped `k` packets, the first ones of those that were in the channel or have
been sent meanwhile. -/
structure State.Pops (s : State) (n k : Nat) (t : State) : Prop where
  cfg : t.cfg = s.cfg
  sched : t.sched = s.sched.drop n
  inCh : ∃ l, l.length = k ∧ s.inCh ++ sentBy s.cfg (s.sched.take n) = l ++ t.inCh

theorem State.Pops.refl (s : State) : s.Pops 0 0 s := ⟨rfl, rfl, [], rfl, by simp⟩

theorem State.Pops.trans (h : s.Pops n k t) (h' : t.Pops m l u) : s.Pops (n + m) (k + l) u := by
  obtain ⟨hcfg, hsched, a, ha, hin⟩ := h
  obtain ⟨hcfg', hsched', b, hb, hin'⟩ := h'
  refine ⟨hcfg'.trans hcfg, by rw [hsched', hsched, List.drop_drop], a ++ b, by rw [List.length_append, ha, hb], ?_⟩
  rw [List.take_add, sentBy_append, ← List.append_assoc, hin, List.append_assoc, List.append_assoc, ← hin', hcfg, hsched]

/-- The packets popped are gone from those to come, and the rest is left in order. -/
theorem State.Pops.pending (h : s.Pops n k t) : ∃ l, l.length = k ∧ s.pending = l ++ t.pending := by
  obtain ⟨hcfg, hsched, l, hl, hin⟩ := h
  refine ⟨l, hl, ?_⟩
  rw [State.pending, State.pending, ← List.append_assoc, ← hin, hcfg, hsched, List.append_assoc, ← sentBy_append,
    List.take_append_drop]

/-- The packets sent are those popped and those left to come. -/
theorem State.Pops.pending_length (h : s.Pops n k t) : t.pending.length + k = s.pending.length := by
  obtain ⟨l, hl, hp⟩ := h.pending
  rw [hp, List.length_append, hl, Nat.add_comm]

/-- Popping moves along the stream. -/
theorem State.Pops.feeds (h : s.Pops n k t) (hf : s.Feeds S l) : t.Feeds S (l + k) := by
  obtain ⟨a, rfl, hp⟩ := h.pending
  intro m p hm hlt
  rw [h.cfg] at hlt
  rw [Nat.add_assoc] at hlt ⊢
  refine hf (a.length + m) p ?_ hlt
  rw [hp, List.getElem?_append_right (Nat.le_add_right ..), Nat.add_sub_cancel_left, hm]

/-- What is still needed is still there or to come. -/
theorem State.Pops.fed (h : s.Pops n k t) (hf : s.fed l) : t.fed (l + k) := by
  obtain ⟨a, rfl, hp⟩ := h.pending
  unfold State.fed at hf ⊢
  rw [h.cfg, Nat.add_assoc, ← List.length_append, ← hp]
  exact hf

/-! ### Transitions between phases (R166) -/

/-- The rows of the transition table: an operation, its phases and its condition. -/
inductive State.PhaseChange (s t : State) : Instr → Prop where
  | start (hs : s.phase = .idle) (ht : t.phase = .loadOffsets) (hreq : s.startReq = true) : s.PhaseChange t .start
  | ldoff (hs : s.phase = .loadOffsets) (ht : t.phase = .loadWeights) (hcnt : s.cnt = s.cfg.offPkts - 1) :
      s.PhaseChange t .ldoff
  | ldwgt (hs : s.phase = .loadWeights) (ht : t.phase = .loadTile) (hcnt : s.cnt = s.cfg.wgtPkts - 1) :
      s.PhaseChange t .ldwgt
  | ldin (hs : s.phase = .loadTile) (ht : t.phase = .computeTile) (hcnt : s.cnt = s.cfg.tileInPkts - 1) :
      s.PhaseChange t .ldin
  | accwb (hs : s.phase = .computeTile) (ht : t.phase = .storeTile) (hi : s.i = s.cfg.tiling - 1)
      (hj : s.j = s.cfg.classes - 1) : s.PhaseChange t .accwb
  | nextTile (hs : s.phase = .storeTile) (ht : t.phase = .loadTile) (hcnt : s.cnt = s.cfg.tileOutPkts - 1)
      (hmore : s.t + 1 < s.cfg.nt) (htile : t.t = s.t + 1) : s.PhaseChange t .stout
  | lastTile (hs : s.phase = .storeTile) (ht : t.phase = .done) (hcnt : s.cnt = s.cfg.tileOutPkts - 1)
      (hlast : s.cfg.nt ≤ s.t + 1) : s.PhaseChange t .stout
  | ack (hs : s.phase = .done) (ht : t.phase = .idle) (hreq : s.ackReq = true) : s.PhaseChange t .ack

/-- Elements of two offsets that exist are those of a packet of the phase (R123). -/
theorem lt_offPkts_of_bufHolds {c : Config} (h : bufHolds c .off 0 (2 * n) 2 = true) : n < c.offPkts := by
  have hcols : 2 * n + 2 ≤ c.classes := (of_decide_eq_true h).2
  have := c.classes_eq
  unfold Config.offPkts
  omega

/-- A count that stands for a row that exists is one of its phase (R124, R131, R158). -/
theorem lt_of_bufHolds_rowOf {c : Config} {b : BufId} {perRow : Nat} (hpos : 0 < perRow)
    (h : bufHolds c b (rowOf n perRow) k l = true) : n < bufRows c b * perRow :=
  (Nat.div_lt_iff_lt_mul hpos).1 (of_decide_eq_true h).1

/-- While the count moves on the phase stays, so a change of phase is that of the last packet (R34). -/
theorem State.phaseChange_countPacket {total : Nat} {atEnd : State} (hph : u.phase = s.phase) (hcnt : u.cnt = s.cnt)
    (hlt : s.cnt < total) (last : s.cnt = total - 1 → s.PhaseChange atEnd i)
    (hne : (u.countPacket total atEnd).phase ≠ s.phase) : s.PhaseChange (u.countPacket total atEnd) i := by
  refine State.countPacket_intro (P := fun v => v.phase ≠ s.phase → s.PhaseChange v i) (fun _ h => absurd hph h)
    (fun hle _ => last ?_) hne
  omega

/-- Every change of phase is a row of the table. -/
theorem exec_phaseChange (he : exec i s = .next t) (hne : t.phase ≠ s.phase) : s.PhaseChange t i := by
  cases i with
  | start =>
    rcases execStart_next he with rfl | ⟨hph, hreq, rfl⟩
    · exact absurd rfl hne
    · exact .start hph rfl hreq
  | ldoff =>
    rcases execLdoff_next he with rfl | ⟨p, rest, s', hph, -, hb, rfl, rfl⟩
    · exact absurd rfl hne
    · exact State.phaseChange_countPacket rfl rfl (lt_offPkts_of_bufHolds hb) (.ldoff hph rfl) hne
  | ldwgt =>
    rcases execLdwgt_next he with rfl | ⟨p, rest, s', hph, -, hb, rfl, rfl⟩
    · exact absurd rfl hne
    · exact State.phaseChange_countPacket rfl rfl (lt_of_bufHolds_rowOf s.cfg.fpp_pos hb) (.ldwgt hph rfl) hne
  | ldin =>
    rcases execLdin_next he with rfl | ⟨p, rest, s', hph, -, hb, rfl, rfl⟩
    · exact absurd rfl hne
    · exact State.phaseChange_countPacket rfl rfl (lt_of_bufHolds_rowOf s.cfg.fpp_pos hb) (.ldin hph rfl) hne
  | accinit =>
    rcases execAccinit_next he with rfl | ⟨-, -, -, rfl⟩ <;> exact absurd rfl hne
  | mac =>
    rcases execMac_next he with rfl | ⟨s', -, -, -, -, rfl, rfl⟩
    · exact absurd rfl hne
    · split at hne <;> exact absurd rfl hne
  | accwb =>
    rcases execAccwb_next he with rfl | ⟨s', hph, -, hb, rfl, rfl⟩
    · exact absurd rfl hne
    obtain ⟨hi, hj⟩ : s.i < s.cfg.tiling ∧ s.j + 1 ≤ s.cfg.classes := of_decide_eq_true hb
    split_ifs at hne ⊢ with hj' hi'
    · exact absurd rfl hne
    · exact absurd rfl hne
    · exact .accwb hph rfl (by omega) (by omega)
  | stout =>
    rcases execStout_next he with rfl | ⟨s', hph, -, hb, rfl, rfl⟩
    · exact absurd rfl hne
    refine State.phaseChange_countPacket rfl rfl (lt_of_bufHolds_rowOf s.cfg.cpp_pos hb) (fun hcnt => ?_) hne
    split
    next hmore => exact .nextTile hph rfl hcnt hmore rfl
    next hlast => exact .lastTile hph rfl hcnt (Nat.le_of_not_lt hlast)
  | ack =>
    rcases execAck_next he with rfl | ⟨hph, hreq, rfl⟩
    · exact absurd rfl hne
    · exact .ack hph rfl hreq

/-- Only from `DONE` does an operation enter `IDLE` (R166). -/
theorem exec_idle (he : exec i s = .next t) (hidle : t.phase = .idle) : s.phase = .idle ∨ s.phase = .done := by
  by_cases hph : s.phase = .idle
  · exact .inl hph
  · cases exec_phaseChange he (by rw [hidle]; exact Ne.symm hph) with
    | ack hs => exact .inr hs
    | start _ ht | ldoff _ ht | ldwgt _ ht | ldin _ ht | accwb _ ht | nextTile _ ht | lastTile _ ht =>
      exact absurd (hidle.symm.trans ht) nofun

/-- Only from `DONE` does a step enter `IDLE`. -/
theorem step_idle (ht : step s = .next t) (hidle : t.phase = .idle) : s.phase = .idle ∨ s.phase = .done := by
  rcases step_turn ht with ⟨m, rest, -, rfl⟩ | ⟨-, i, he⟩
  · rw [(State.hostMove_selector _ m).1] at hidle
    exact .inl hidle
  · exact exec_idle (s := { s with sched := s.sched.tail }) he hidle

/-! ### A step pops along the stream (R44, R71, R121) -/

/-- An operation that does not begin an invocation counts what it pops (R37, R121). -/
theorem exec_icnt (he : exec i s = .next t) (hi : i ≠ .start) :
    ∃ l, s.inCh = l ++ t.inCh ∧ t.icnt = s.icnt + l.length := by
  obtain ⟨u, hw, hm⟩ := exec_writes he
  rw [hm]
  cases hw with
  | start => exact absurd rfl hi
  | ldoff p rest _ _ hc | ldwgt p rest _ _ _ hc | ldin p rest _ _ _ hc => exact ⟨[p], hc, rfl⟩
  | nothing | accinit | mac | accwb | stout | ack => exact ⟨[], rfl, rfl⟩

/-- Unless it ends the invocation an operation adds to the packets popped those that it pops. -/
theorem exec_pops (he : exec i s = .next t) (hack : t.phase = .idle → s.phase = .idle) :
    ∃ k, s.Pops 0 k t ∧ t.popped = s.popped + k := by
  by_cases hi : i = .start
  · subst hi
    rcases execStart_next he with rfl | ⟨hph, -, rfl⟩
    · exact ⟨0, .refl _, rfl⟩
    · exact ⟨0, ⟨rfl, rfl, [], rfl, by simp⟩, by rw [State.popped_of_idle hph]; rfl⟩
  by_cases hph : s.phase = .idle
  · rw [exec_of_fetch_ne (by simp [State.fetch_eq, hph, Ne.symm hi])] at he
    cases he
    exact ⟨0, .refl _, rfl⟩
  · obtain ⟨hcfg, hsched, -⟩ := onlyNamedOperationsWrite i s t he
    obtain ⟨l, hin, hicnt⟩ := exec_icnt he hi
    refine ⟨l.length, ⟨hcfg, hsched, l, rfl, by simp [hin]⟩, ?_⟩
    rw [State.popped_of_not_idle hph, State.popped_of_not_idle (mt hack hph), hicnt]

theorem State.pops_hostMove {m : HostMove} {rest : List Turn} (hs : s.sched = .host m :: rest) :
    s.Pops 1 0 ({ s with sched := rest }.hostMove m) := by
  refine ⟨?_, ?_, [], rfl, ?_⟩
  · rw [State.hostMove_frame]
  · rw [State.hostMove_frame, hs]
    rfl
  · rw [State.hostMove_inCh, hs]
    rfl

/-- The kernel's turn itself pops nothing. -/
theorem State.KernelsTurn.pops (h : s.KernelsTurn) : s.Pops 1 0 { s with sched := s.sched.tail } :=
  ⟨rfl, List.drop_one.symm, [], rfl, by simp [h.sentBy_take_one]⟩

/-- Unless it ends the invocation a step adds to the packets popped those that it pops. -/
theorem step_pops (ht : step s = .next t) (hack : t.phase = .idle → s.phase = .idle) :
    ∃ k, s.Pops 1 k t ∧ t.popped = s.popped + k := by
  rcases step_turn ht with ⟨m, rest, hs, rfl⟩ | ⟨hturn, i, he⟩
  · refine ⟨0, State.pops_hostMove hs, ?_⟩
    rw [State.hostMove_frame]
    rfl
  · obtain ⟨k, hpops, hpopped⟩ := exec_pops he hack
    exact ⟨k, Nat.zero_add k ▸ hturn.pops.trans hpops, hpopped⟩

/-! ### Every step keeps a run in agreement with its stream (R180) -/

variable {before : List Packet}

/-- Taking the turn off the schedule keeps the agreement. -/
theorem State.Tracks.kernelsTurn (h : s.Tracks S before) (hturn : s.KernelsTurn) :
    { s with sched := s.sched.tail }.Tracks S before where
  inv := { h.inv with }
  running := h.running
  feeds := hturn.pops.feeds h.feeds
  buffers := h.buffers
  pushed := h.pushed

/-- A step keeps the buffers and what has been pushed in agreement with the stream, ACK among them. -/
theorem State.Tracks.step_data (h : s.Tracks S before) (ht : step s = .next t) :
    t.buffersTrack S ∧ t.received ++ t.outCh = before ++ refOut t.cfg S t.ocnt := by
  rcases step_turn ht with ⟨m, rest, -, rfl⟩ | ⟨hturn, i, he⟩
  · refine ⟨(State.hostMove_buffersTrack m).2 h.buffers, ?_⟩
    rw [State.hostMove_pushed, State.hostMove_frame]
    exact h.pushed
  · have h' := h.kernelsTurn hturn
    exact ⟨exec_buffersTrack h'.inv h'.feeds h'.buffers he, exec_pushed h'.inv h'.running h'.buffers h'.pushed he⟩

/-- A step that does not end the invocation keeps the agreement. -/
theorem State.Tracks.step (h : s.Tracks S before) (ht : step s = .next t) (hidle : t.phase ≠ .idle) :
    t.Tracks S before := by
  obtain ⟨hbuffers, hpushed⟩ := h.step_data ht
  obtain ⟨k, hpops, hpopped⟩ := step_pops ht (absurd · hidle)
  rw [State.popped_of_not_idle hidle, State.popped_of_not_idle h.running] at hpopped
  exact {
    inv := stepKeepsInvariant s t h.inv ht
    running := hidle
    feeds := hpopped ▸ hpops.feeds h.feeds
    buffers := hbuffers
    pushed := hpushed }

/-- Leaving `DONE` is ACK, which pushes nothing and keeps the count (R178). -/
theorem step_ack_ocnt (ht : step s = .next t) (hdone : s.phase = .done) (hidle : t.phase = .idle) :
    t.cfg = s.cfg ∧ t.ocnt = s.ocnt := by
  rcases step_turn ht with ⟨m, rest, -, rfl⟩ | ⟨-, i, he⟩
  · rw [State.hostMove_frame]
    exact ⟨rfl, rfl⟩
  · have hchange := exec_phaseChange he (by rw [hidle]; exact hdone ▸ nofun)
    cases hchange with
    | ack =>
      rcases execAck_next he with rfl | ⟨-, -, rfl⟩ <;> exact ⟨rfl, rfl⟩
    | start hs | ldoff hs | ldwgt hs | ldin hs | accwb hs | nextTile hs | lastTile hs =>
      exact absurd (hdone.symm.trans hs) nofun

end

section
variable {s t u : State} {i : Instr} {S : Nat → Payload} {before : List Packet} {c : Config} {n : Nat}

/-! ### How many operations a run has (R109, R175, R183) -/

section
variable (c n)

theorem dotsOps_length : (dotsOps c n).length = n * (c.ng + 2) := by
  simp [dotsOps, dotOps, Nat.add_assoc]

theorem tilesOps_length : (tilesOps c n).length = n * c.tileSteps := by
  simp [tilesOps, tileOps, dotsOps_length, Config.tileSteps, Nat.add_assoc]

theorem runOps_length : (runOps c).length = c.steps := by
  simp only [runOps, List.length_append, List.length_replicate, List.length_singleton, tilesOps_length, Config.steps]

theorem steps_eq : c.steps = 1 + c.isSize + c.osSize + c.batch * c.classes * (c.ng + 2) := by
  rw [Config.steps, Config.tileSteps, c.isSize_eq, c.osSize_eq, c.batch_eq]
  ring

/-- The operations that an operation of the engine is not among are those of the two packet phases of each tile. -/
theorem tilesOps_countP {p : Instr → Bool} (hinit : p .accinit = false) (hmac : p .mac = false) (hwb : p .accwb = false) :
    (tilesOps c n).countP p
      = n * ((if p .ldin then c.tileInPkts else 0) + if p .stout then c.tileOutPkts else 0) := by
  simp [tilesOps, tileOps, dotsOps, dotOps, List.countP_flatten, List.countP_replicate, hinit, hmac, hwb]

end

/-! ### Two states that agree on control (R31, R167) -/

/-- The state whose control is that of `s` and whose data are those of `u`: the accumulator, the buffers, the packets and
what is the model's own. -/
def State.withData (s u : State) : State :=
  { s with acc := u.acc, mem := u.mem, inCh := u.inCh, outCh := u.outCh, sched := u.sched, received := u.received }

theorem sameControl_iff :
    SameControl s u ↔ s.withData u = u ∧ s.inCh.length = u.inCh.length ∧ s.outCh.length = u.outCh.length := by
  constructor
  · rintro ⟨h1, h2, h3, h4, h5, h6, h7, h8, h9, h10, h11, h12, hlen⟩
    refine ⟨?_, hlen⟩
    simp only [State.withData, h1, h2, h3, h4, h5, h6, h7, h8, h9, h10, h11, h12]
  · rintro ⟨he, hlen⟩
    rw [← he]
    exact ⟨rfl, rfl, rfl, rfl, rfl, rfl, rfl, rfl, rfl, rfl, rfl, rfl, by rwa [he]⟩

theorem SameControl.hasRoom_eq (h : SameControl s u) : s.hasRoom = u.hasRoom := by
  obtain ⟨he, -, hout⟩ := sameControl_iff.1 h
  have hcfg : s.cfg = u.cfg := (congrArg State.cfg he :)
  rw [State.hasRoom, State.hasRoom, hcfg, hout]

/-- A choice on control is the same in both states. -/
theorem SameControl.ite {p : Prop} [Decidable p] {a a' b b' : State} (h : SameControl a a') (h' : SameControl b b') :
    SameControl (if p then a else b) (if p then a' else b') := by
  split
  · exact h
  · exact h'

/-- The two answers agree on control, or are the same fault. -/
inductive AgreeOnControl : Result → Result → Prop where
  | next {t u : State} (h : SameControl t u) : AgreeOnControl (.next t) (.next u)
  | fault (f : Fault) : AgreeOnControl (.fault f) (.fault f)

theorem AgreeOnControl.of_next {r : Result} (h : AgreeOnControl (.next t) r) : ∃ u, r = .next u ∧ SameControl t u := by
  cases h with
  | next h => exact ⟨_, rfl, h⟩

theorem AgreeOnControl.of_fault {f : Fault} {r : Result} (h : AgreeOnControl (.fault f) r) : r = .fault f := by
  cases h with
  | fault => rfl

theorem AgreeOnControl.ite {p : Prop} [Decidable p] {a b : Result} (hs : SameControl s u) (h : AgreeOnControl a b) :
    AgreeOnControl (if p then a else .next s) (if p then b else .next u) := by
  split
  · exact h
  · exact .next hs

theorem AgreeOnControl.within {b : BufId} {r k m : Nat} {res res' : Result} (hcfg : s.cfg = u.cfg)
    (h : AgreeOnControl res res') : AgreeOnControl (s.within b r k m res) (u.within b r k m res') := by
  unfold State.within
  rw [hcfg]
  split
  · exact h
  · exact .fault _

/-- Whether there is a packet to pop is control, and the packet itself is not (R121). -/
theorem AgreeOnControl.popping {k k' : Packet → State → Result} (hs : SameControl s u)
    (h : ∀ (p p' : Packet) (rest rest' : List Packet), rest.length = rest'.length →
      AgreeOnControl (k p { s with inCh := rest, icnt := s.icnt + 1 })
        (k' p' { u with inCh := rest', icnt := u.icnt + 1 })) :
    AgreeOnControl (s.popping k) (u.popping k') := by
  obtain ⟨-, hlen, -⟩ := sameControl_iff.1 hs
  rcases hc : s.inCh with _ | ⟨p, rest⟩
  · have hc' : u.inCh = [] := List.length_eq_zero_iff.1 (by rw [← hlen, hc]; rfl)
    rw [State.popping_nil hc, State.popping_nil hc']
    exact .next hs
  · rcases hc' : u.inCh with _ | ⟨p', rest'⟩
    · rw [hc, hc'] at hlen
      cases hlen
    · rw [hc, hc'] at hlen
      rw [State.popping_cons hc, State.popping_cons hc']
      exact h p p' rest rest' (Nat.succ.inj hlen)

theorem AgreeOnControl.countPacket {total : Nat} {atEnd atEnd' : State} (hcnt : s.cnt = u.cnt)
    (more : SameControl { s with cnt := s.cnt + 1 } { u with cnt := u.cnt + 1 }) (last : SameControl atEnd atEnd') :
    AgreeOnControl (.next (s.countPacket total atEnd)) (.next (u.countPacket total atEnd')) := by
  unfold State.countPacket
  rw [← hcnt] at more ⊢
  split
  · exact .next more
  · exact .next last

/-- Every operation takes states that agree on control to answers that do (R167). -/
theorem exec_agreeOnControl (i : Instr) (h : SameControl s u) : AgreeOnControl (exec i s) (exec i u) := by
  obtain ⟨he, hin, hout⟩ := sameControl_iff.1 h
  have same {v v' : State} (hv : v.withData v' = v') (hvin : v.inCh.length = v'.inCh.length)
      (hvout : v.outCh.length = v'.outCh.length) : SameControl v v' := sameControl_iff.2 ⟨hv, hvin, hvout⟩
  rw [← he] at h ⊢
  cases i with
  | start | ack => exact .ite h (.next (same rfl hin hout))
  | ldoff | ldwgt | ldin =>
    refine .ite h (.popping h fun p p' rest rest' hlen => .within rfl ?_)
    exact .countPacket rfl (same rfl hlen hout) (same rfl hlen hout)
  | accinit => exact .ite h (.within rfl (.next (same rfl hin hout)))
  | mac => exact .ite h (.within rfl (.within rfl (.next (.ite (same rfl hin hout) (same rfl hin hout)))))
  | accwb =>
    exact .ite h (.within rfl (.next (.ite (same rfl hin hout) (.ite (same rfl hin hout) (same rfl hin hout)))))
  | stout =>
    have hpush (p p' : Packet) : (s.outCh ++ [p]).length = (u.outCh ++ [p']).length := by simp [hout]
    rw [exec, exec, execStout, execStout, ← h.hasRoom_eq]
    refine .ite h (.within rfl (.countPacket rfl (same rfl hin (hpush _ _)) ?_))
    exact .ite (same rfl hin (hpush _ _)) (same rfl hin (hpush _ _))

end

section
variable {s t u : State} {i : Instr} {S : Nat → Payload} {before : List Packet} {c : Config} {k n : Nat}

/-! ### START begins a run in agreement with the stream to come (R165, R206) -/

/-- START, as an equation of the whole state (R165). -/
theorem execStart_of_atIdle (h : s.atIdle) :
    execStart s = .next { s with
      phase := .loadOffsets, t := 0, cnt := 0, i := 0, j := 0, g := 0, cs := .init, icnt := 0, ocnt := 0
      startReq := false } :=
  if_pos h

/-- START begins a run in agreement with the stream: nothing that an earlier run left behind is asked for, since START and the
load phases set what is read. -/
theorem State.Sound.start_tracks (h : s.Sound) (hidle : s.atIdle) (hf : s.Feeds S 0) (he : execStart s = .next t) :
    t.Tracks S (s.received ++ s.outCh) := by
  have hsound := h.exec (i := .start) he
  cases (execStart_of_atIdle hidle).symm.trans he
  exact {
    inv := State.inv_iff.2
      ⟨hsound, (State.phaseInv_loadOffsets rfl).2 ⟨rfl, s.cfg.cpp_pos, rfl, rfl, rfl⟩, s.cfg.nt_pos⟩
    running := nofun
    feeds := hf
    buffers := (State.buffersTrack_loadOffsets rfl).2 fun _ h => absurd h (Nat.not_lt_zero _)
    pushed := (List.append_nil _).symm }

/-- On the kernel's turn at idle with `start` raised the step is START. -/
theorem State.KernelsTurn.step_start (hturn : s.KernelsTurn) (hidle : s.atIdle) :
    step s = exec .start { s with sched := s.sched.tail } :=
  stepRunsSelectedOperation s .start hturn (State.fetch_eq_ok_iff.2 hidle.1)

/-! ### A run from START on, under every interleaving (R180) -/

/-- An invocation on the stream `S`, until it is acknowledged: `start` is raised and the stream is to come, or the run agrees
with the stream. `before` is what had been pushed before START. -/
inductive State.Serves (S : Nat → Payload) (before : List Packet) (s : State) : Prop where
  | waits (sound : s.Sound) (idle : s.atIdle) (feeds : s.Feeds S 0) (pushed : s.received ++ s.outCh = before)
  | runs (tracks : s.Tracks S before)

/-- A raised `start` stays raised through the environment's moves (log 7). -/
theorem State.atIdle.hostMove (h : s.atIdle) (m : HostMove) : (s.hostMove m).atIdle := by
  refine ⟨(s.hostMove_selector m).1.trans h.1, ?_⟩
  rcases s.hostMove_cases m with he | ⟨_, -, he⟩ | ⟨_, _, -, -, he⟩ | ⟨-, -, he⟩ | ⟨-, -, he⟩ <;> rw [he] <;>
    exact h.2

/-- Every step before `DONE` keeps an invocation on its stream. -/
theorem State.Serves.step (h : s.Serves S before) (hdone : s.phase ≠ .done) (ht : step s = .next t) :
    t.Serves S before := by
  cases h with
  | waits sound idle feeds pushed =>
    rcases step_turn ht with ⟨m, rest, hs, rfl⟩ | ⟨hturn, -⟩
    · exact .waits (sound.step ht) (State.atIdle.hostMove (s := { s with sched := rest }) idle m)
        ((State.pops_hostMove hs).feeds feeds) ((State.hostMove_pushed _ m).trans pushed)
    · rw [hturn.step_start idle] at ht
      have hsound : { s with sched := s.sched.tail }.Sound := { sound with }
      exact .runs (pushed ▸ hsound.start_tracks idle (hturn.pops.feeds feeds) ht)
  | runs tracks =>
    exact .runs (tracks.step ht fun hidle => (step_idle ht hidle).elim tracks.running hdone)

/-! ### A step before `DONE` takes an operation off the list, or a turn off the schedule (R109, R225) -/

/-- An invocation that is to begin or in progress. -/
def State.Live (s : State) : Prop := (s.Sound ∧ s.atIdle) ∨ (s.Inv ∧ s.phase ≠ .idle)

theorem State.Serves.live (h : s.Serves S before) : s.Live := by
  cases h with
  | waits sound idle => exact .inl ⟨sound, idle⟩
  | runs tracks => exact .inr ⟨tracks.inv, tracks.running⟩

theorem State.Live.follows (h : s.Live) (hen : s.enabledOp = some i) (hack : i ≠ .ack) : s.Follows i := by
  rcases h with ⟨-, hph, hreq⟩ | ⟨hinv, -⟩
  · have hsel := (State.enabledOp_eq_some_iff.1 hen).1
    rw [State.fetch_eq, hph] at hsel
    cases hsel
    exact start_follows hph hreq
  · exact operationsFollowTheFixedSequence s i hinv hen hack

/-- With no operation enabled the kernel's turn passes and nothing else changes (R104, log 9). -/
theorem State.KernelsTurn.step_of_none (hturn : s.KernelsTurn) (hen : s.enabledOp = none) :
    step s = .next { s with sched := s.sched.tail } := by
  have hen' : { s with sched := s.sched.tail }.enabledOp = none := hen
  rcases hf : { s with sched := s.sched.tail }.fetch with e | i
  · simp only [Machine.step, State.takeTurn_of_not_host hturn, hf]
  · rw [stepRunsSelectedOperation s i hturn hf]
    exact disabledOperationChangesNothing _ i (by rw [hen']; exact nofun)

/-- A step before `DONE` answers a next state, and performs the next operation of the list unless the environment moves or
no operation is enabled. -/
theorem State.Live.exists_step (h : s.Live) (hdone : s.phase ≠ .done) :
    ∃ t, step s = .next t ∧ t.sched = s.sched.tail
      ∧ ((∃ i, s.todo = i :: t.todo) ∨ (t.todo = s.todo ∧ (s.sched = [] → s.enabledOp = none))) := by
  by_cases hhost : ∃ m rest, s.sched = .host m :: rest
  · obtain ⟨m, rest, hs⟩ := hhost
    refine ⟨_, step_of_host hs, ?_, .inr ⟨?_, by simp [hs]⟩⟩
    · rw [State.hostMove_frame, hs]
      rfl
    · rw [State.hostMove_frame]
      rfl
  have hturn : s.KernelsTurn := fun m rest hs => hhost ⟨m, rest, hs⟩
  rcases hen : s.enabledOp with _ | i
  · exact ⟨_, hturn.step_of_none hen, rfl, .inr ⟨rfl, fun _ => rfl⟩⟩
  · have hsel := (State.enabledOp_eq_some_iff.1 hen).1
    have hack : i ≠ .ack := by
      rintro rfl
      exact hdone (State.fetch_eq_ok_iff.1 hsel)
    have hlive : { s with sched := s.sched.tail }.Live :=
      h.imp (fun ⟨hsound, hidle⟩ => ⟨{ hsound with }, hidle⟩) fun ⟨hinv, hph⟩ => ⟨{ hinv with }, hph⟩
    obtain ⟨t, he, htodo⟩ := hlive.follows hen hack
    obtain ⟨-, hsched, -⟩ := onlyNamedOperationsWrite i _ t he
    exact ⟨t, (stepRunsSelectedOperation s i hturn hsel).trans he, hsched, .inl ⟨i, htodo⟩⟩

/-- A step takes at most one operation off the list. -/
theorem State.Live.todo_le (h : s.Live) (hdone : s.phase ≠ .done) (ht : step s = .next t) :
    s.todo.length ≤ t.todo.length + 1 := by
  obtain ⟨t', ht', -, htodo⟩ := h.exists_step hdone
  cases ht.symm.trans ht'
  rcases htodo with ⟨i, htodo⟩ | ⟨htodo, -⟩
  · rw [htodo, List.length_cons]
  · rw [htodo]
    exact Nat.le_succ _

/-- A load phase that has the packets it needs finds one in the channel when no turn is scheduled. -/
theorem State.inCh_ne_nil_of_fed (hs : s.sched = []) (hfed : s.fed s.icnt) (hicnt : s.icnt < s.cfg.isSize) :
    s.inCh ≠ [] := by
  intro hc
  simp only [State.fed, State.pending, hs, hc, sentBy_nil, List.append_nil, List.length_nil] at hfed
  omega

/-- With no turn scheduled the output channel has room for STOUT, if the environment drains it (R190). -/
theorem State.hasRoom_of_drains (hs : s.sched = []) (hdrains : s.HostDrains) (hph : s.phase = .storeTile) :
    s.hasRoom = true := by
  by_contra hroom
  rcases hdrains with hcap | hdrains
  · exact hroom (by simp [State.hasRoom, hcap])
  · have hrecv := hdrains 0 s (State.underway_zero (by simp [hph])) hph (by simpa using hroom)
    simp [hs] at hrecv

/-- With no turn scheduled an invocation that has its packets and is drained has an operation enabled before `DONE` (R189,
R190). -/
theorem State.Live.enabled (h : s.Live) (hdone : s.phase ≠ .done) (hs : s.sched = []) (hfed : s.fed s.popped)
    (hdrains : s.HostDrains) : s.enabledOp ≠ none := by
  have enabled {i : Instr} (hsel : s.Selects i) (hcond : s.condition i = true) : s.enabledOp ≠ none := by
    rw [State.enabledOp_eq_some_iff_selects.2 ⟨hsel, hcond⟩]
    exact nofun
  rcases h with ⟨-, hph, hreq⟩ | ⟨hinv, hrun⟩
  · exact enabled (i := .start) hph hreq
  rw [State.popped_of_not_idle hrun] at hfed
  have hpacket (hicnt : s.icnt < s.cfg.isSize) : (!s.inCh.isEmpty) = true := by
    simpa using State.inCh_ne_nil_of_fed hs hfed hicnt
  obtain ⟨hoff, hwgt, hin⟩ := positionDecidesTheFormat s hinv
  have hsize := s.cfg.isSize_eq
  obtain ⟨hnres, hcsres⟩ := hinv.phaseInv.not_reserved
  cases hph : s.phase with
  | idle => exact absurd hph hrun
  | loadOffsets =>
    have hicnt := hoff (State.fetch_eq_ok_iff.2 hph)
    exact enabled (i := .ldoff) hph (hpacket (by omega))
  | loadWeights =>
    obtain ⟨-, hicnt⟩ := hwgt (State.fetch_eq_ok_iff.2 hph)
    exact enabled (i := .ldwgt) hph (hpacket (by omega))
  | loadTile => exact enabled (i := .ldin) hph (hpacket (hin (State.fetch_eq_ok_iff.2 hph)).2)
  | computeTile =>
    cases hcs : s.cs with
    | init => exact enabled (i := .accinit) ⟨hph, hcs⟩ rfl
    | macs => exact enabled (i := .mac) ⟨hph, hcs⟩ rfl
    | wb => exact enabled (i := .accwb) ⟨hph, hcs⟩ rfl
    | reserved => exact absurd hcs hcsres
  | storeTile => exact enabled (i := .stout) hph (State.hasRoom_of_drains hs hdrains hph)
  | done => exact absurd hph hdone
  | reserved => exact absurd hph hnres

/-- A step before `DONE` of an invocation that has its packets and is drained brings the end closer: there is a turn or an
operation less to come. -/
theorem State.Live.step_decreases (h : s.Live) (hdone : s.phase ≠ .done) (hfed : s.fed s.popped) (hdrains : s.HostDrains) :
    ∃ t, step s = .next t ∧ t.sched.length + t.todo.length < s.sched.length + s.todo.length := by
  obtain ⟨t, ht, hsched, htodo⟩ := h.exists_step hdone
  refine ⟨t, ht, ?_⟩
  have hle : s.sched.tail.length ≤ s.sched.length := by simp
  rcases htodo with ⟨i, htodo⟩ | ⟨htodo, hnone⟩
  · rw [htodo, hsched, List.length_cons]
    omega
  · have hpos : s.sched ≠ [] := fun hs => h.enabled hdone hs hfed hdrains (hnone hs)
    have := List.length_pos_iff.2 hpos
    rw [htodo, hsched, List.length_tail]
    omega

/-- What is drained stays drained. -/
theorem State.HostDrains.step (h : s.HostDrains) (hdone : s.phase ≠ .done) (ht : step s = .next t) (hcfg : t.cfg = s.cfg) :
    t.HostDrains :=
  h.imp (fun hcap => hcfg ▸ hcap) fun hd n v hv => hd (n + 1) v (hv.succ ht hdone)

/-! ### Runs until `DONE` is first reached (R225) -/

/-- The run from `s` is in `t` after `n` steps and has not been in `DONE` before. -/
def State.RunsTo (s : State) (n : Nat) (t : State) : Prop :=
  Host.Core.run core n s = .next t ∧ ∀ m < n, ∀ u : State, Host.Core.run core m s = .next u → u.phase ≠ .done

theorem State.RunsTo.zero (s : State) : s.RunsTo 0 s := ⟨run_zero s, fun _ h => absurd h (Nat.not_lt_zero _)⟩

theorem State.RunsTo.cons (ht : step s = .next t) (hdone : s.phase ≠ .done) (h : t.RunsTo n u) : s.RunsTo (n + 1) u := by
  refine ⟨(run_succ ht).trans h.1, fun m hm v hv => ?_⟩
  cases m with
  | zero =>
    cases hv
    exact hdone
  | succ m => exact h.2 m (Nat.lt_of_succ_lt_succ hm) v ((run_succ ht).symm.trans hv)

theorem State.RunsTo.succ (h : s.RunsTo (n + 1) u) :
    ∃ t, step s = .next t ∧ s.phase ≠ .done ∧ t.RunsTo n u := by
  obtain ⟨hrun, hfirst⟩ := h
  obtain ⟨t, ht, hrun⟩ := run_succ_next hrun
  exact ⟨t, ht, hfirst 0 (Nat.succ_pos n) s (run_zero s), hrun, fun m hm v hv =>
    hfirst (m + 1) (Nat.succ_lt_succ hm) v ((run_succ ht).trans hv)⟩

/-- A run that reaches `DONE` after at least one step was underway one step before. -/
theorem State.RunsTo.underway (h : s.RunsTo (n + 1) u) : ∃ t, s.Underway n t := by
  induction n generalizing s with
  | zero =>
    obtain ⟨t, -, hdone, -⟩ := h.succ
    exact ⟨s, State.underway_zero hdone⟩
  | succ n ih =>
    obtain ⟨t, ht, hdone, htu⟩ := h.succ
    obtain ⟨v, hv⟩ := ih htu
    exact ⟨v, hv.succ ht hdone⟩

/-- Where every step before `DONE` keeps `P` and makes the measure smaller, `DONE` is reached within the measure. -/
theorem reaches_done {P : State → Prop} {measure : State → Nat}
    (hstep : ∀ s, P s → s.phase ≠ .done → ∃ t, step s = .next t ∧ P t ∧ measure t < measure s) (h : P s) :
    ∃ n ≤ measure s, ∃ t, s.RunsTo n t ∧ t.phase = .done := by
  induction hm : measure s using Nat.strong_induction_on generalizing s with
  | _ m ih =>
    by_cases hdone : s.phase = .done
    · exact ⟨0, Nat.zero_le _, s, .zero s, hdone⟩
    · obtain ⟨u, hu, hPu, hlt⟩ := hstep s h hdone
      obtain ⟨n, hn, t, hrun, ht⟩ := ih (measure u) (hm ▸ hlt) hPu rfl
      exact ⟨n + 1, by omega, t, hrun.cons hu hdone, ht⟩

/-- A run pops along the stream, serves it, and takes at most one operation a step off the list. -/
theorem State.RunsTo.serves (hrun : s.RunsTo n t) (h : s.Serves S before) :
    t.Serves S before ∧ (∃ k, s.Pops n k t ∧ t.popped = s.popped + k) ∧ s.todo.length ≤ t.todo.length + n := by
  induction n generalizing s with
  | zero =>
    cases hrun.1
    exact ⟨h, ⟨0, .refl _, rfl⟩, le_rfl⟩
  | succ n ih =>
    obtain ⟨u, hu, hdone, hrun⟩ := hrun.succ
    obtain ⟨hserves, ⟨k, hpops, hpopped⟩, hle⟩ := ih hrun (h.step hdone hu)
    obtain ⟨l, hpops', hpopped'⟩ := step_pops hu fun hidle => (step_idle hu hidle).resolve_right hdone
    have hle' := h.live.todo_le hdone hu
    exact ⟨hserves, ⟨l + k, Nat.add_comm 1 n ▸ hpops'.trans hpops, by omega⟩, by omega⟩

/-! ### The invocation under its launch premises (R191, R206) -/

theorem State.Sound.serves (h : s.Sound) (hidle : s.atIdle) (hf : s.Feeds S 0) : s.Serves S (s.received ++ s.outCh) :=
  .waits h hidle hf rfl

/-- What a run that first reaches `DONE` has popped and pushed, and how many steps it took at least. -/
theorem State.RunsTo.closedForm (hrun : s.RunsTo n t) (hdone : t.phase = .done) (hsound : s.Sound) (hidle : s.atIdle)
    (hf : s.Feeds S 0) :
    t.icnt = s.cfg.isSize ∧ t.ocnt = s.cfg.osSize
      ∧ t.received ++ t.outCh = (s.received ++ s.outCh) ++ refOut s.cfg S s.cfg.osSize
      ∧ s.Pops n s.cfg.isSize t ∧ s.cfg.steps ≤ n := by
  obtain ⟨hserves, ⟨k, hpops, hpopped⟩, hsteps⟩ := hrun.serves (hsound.serves hidle hf)
  cases hserves with
  | waits _ idle => exact absurd (hdone.symm.trans idle.1) nofun
  | runs tracks =>
    obtain ⟨-, hicnt, hocnt⟩ := (State.phaseInv_done hdone).1 tracks.inv.phaseInv
    have hpushed := tracks.pushed
    rw [hpops.cfg] at hicnt hocnt hpushed
    rw [State.popped_of_not_idle tracks.running, State.popped_of_idle hidle.1, Nat.zero_add, hicnt] at hpopped
    rw [State.todo_done hdone, State.todo_idle hidle.1, runOps_length, List.length_nil, Nat.zero_add] at hsteps
    exact ⟨hicnt, hocnt, hocnt ▸ hpushed, hpopped ▸ hpops, hsteps⟩

/-- Nothing but the packets of the stream has come by the time `DONE` is reached, so none is left (R191). -/
theorem State.RunsTo.inCh_nil (hrun : s.RunsTo n t) (hidle : s.phase = .idle) (hdone : t.phase = .done)
    (hsends : s.HostSends S) (hpops : s.Pops n s.cfg.isSize t) : t.inCh = [] := by
  cases n with
  | zero =>
    cases hrun.1
    exact absurd (hdone.symm.trans hidle) nofun
  | succ n =>
    obtain ⟨u, hu⟩ := hrun.underway
    have hcame := hsends.nothingElse n u hu
    obtain ⟨l, hl, hin⟩ := hpops.inCh
    rw [hin, List.length_append, hl] at hcame
    exact List.length_eq_zero_iff.1 (by omega)

/-- An invocation that has its packets and is drained reaches `DONE`, within the turns scheduled and the operations left
(R225). -/
theorem State.Serves.reaches_done (h : s.Serves S before) (hfed : s.fed s.popped) (hdrains : s.HostDrains) :
    ∃ n ≤ s.sched.length + s.todo.length, ∃ t, s.RunsTo n t ∧ t.phase = .done := by
  refine Machine.reaches_done (P := fun u => u.Serves S before ∧ u.fed u.popped ∧ u.HostDrains)
    (measure := fun u => u.sched.length + u.todo.length) (fun u ⟨hu, hfed, hdrains⟩ hdone => ?_) ⟨h, hfed, hdrains⟩
  obtain ⟨v, hv, hlt⟩ := hu.live.step_decreases hdone hfed hdrains
  obtain ⟨k, hpops, hpopped⟩ := step_pops hv fun hidle => (step_idle hv hidle).resolve_right hdone
  exact ⟨v, hv, ⟨hu.step hdone hv, hpopped ▸ hpops.fed hfed, hdrains.step hdone hv hpops.cfg⟩, hlt⟩

/-- An invocation on exactly its stream, drained, reaches `DONE` (R206, R225). -/
theorem State.HostSends.reaches_done (hsends : s.HostSends S) (hsound : s.Sound) (hidle : s.atIdle)
    (hdrains : s.HostDrains) :
    ∃ n ≤ s.sched.length + s.cfg.steps, ∃ t, s.RunsTo n t ∧ t.phase = .done := by
  have hfed : s.fed s.popped := State.popped_of_idle hidle.1 ▸ hsends.fed
  rw [← runOps_length, ← State.todo_idle hidle.1]
  exact (hsound.serves hidle hsends.feeds).reaches_done hfed hdrains

/-- With no turn scheduled nothing is handed over. -/
theorem run_received (hs : s.sched = []) (hrun : Host.Core.run core n s = .next t) : t.received = s.received := by
  induction n generalizing s with
  | zero =>
    cases hrun
    rfl
  | succ n ih =>
    obtain ⟨u, hu, hrun⟩ := run_succ_next hrun
    rcases step_turn hu with ⟨m, rest, hs', -⟩ | ⟨-, i, he⟩
    · rw [hs] at hs'
      cases hs'
    · obtain ⟨-, hsched, hrec, -⟩ := onlyNamedOperationsWrite i _ u he
      exact (ih (by rw [hsched, hs]; rfl) hrun).trans hrec

/-! ### The closed form itself (R161, R181) -/

theorem refOut_length (c : Config) (S : Nat → Payload) (n : Nat) : (refOut c S n).length = n := by
  simp [refOut]

/-- Just the last packet of the closed form carries the flag (R159, R161). -/
theorem refOut_last_iff {m : Nat} {p : Packet} (h : (refOut c S c.osSize)[m]? = some p) :
    p.last = true ↔ m + 1 = c.osSize := by
  obtain ⟨hm, rfl⟩ : m < c.osSize ∧ refPacket c S m = p := by
    simpa [refOut, List.getElem?_eq_some_iff] using h
  simp only [refPacket, decide_eq_true_eq]
  omega

/-- The closed form looks at neither `TILING` nor `LANES` (R148, R181). -/
theorem refOut_tiling_lanes {c c' : Config} {tiling lanes : Nat}
    (h : c'.toParams = { c.toParams with tiling := tiling, lanes := lanes }) (S : Nat → Payload) :
    c'.osSize = c.osSize ∧ refOut c' S c'.osSize = refOut c S c.osSize := by
  obtain ⟨p, ok⟩ := c'
  cases h
  exact ⟨rfl, rfl⟩

end

/-- Settles O38: the invariant, the stream to come, the buffers and what has been pushed, each kept by every step; at ACK the
count of `DONE` is `OS_SIZE`. -/
theorem stepKeepsTrackingTheStream : Obligations.StepKeepsTrackingTheStream := by
  intro S before s t h ht
  by_cases hidle : t.phase = .idle
  · have hdone : s.phase = .done := (step_idle ht hidle).resolve_left h.running
    obtain ⟨-, -, hocnt⟩ := (State.phaseInv_done hdone).1 h.inv.phaseInv
    obtain ⟨hcfg, hkept⟩ := step_ack_ocnt ht hdone hidle
    have hpushed := (h.step_data ht).2
    rw [hcfg, hkept, hocnt] at hpushed
    exact .inr ⟨hdone, hidle, hpushed⟩
  · exact .inl (h.step ht hidle)

/-- Settles O25: the rows of the table, where a tile index in range that is not below the last is the last. -/
theorem phaseTransitionsAreThoseOfTheTable : Obligations.PhaseTransitionsAreThoseOfTheTable := by
  intro i s t htile he hne
  have hchange := exec_phaseChange he hne
  cases hchange with
  | lastTile hs ht hcnt hlast =>
    have hnt : s.t + 1 = s.cfg.nt := Nat.le_antisymm htile hlast
    simp [*]
  | start | ldoff | ldwgt | ldin | accwb | nextTile | ack => simp [*]

/-- Settles O36: each phase handles its packets once, and each output element takes one ACCINIT, `NG` MACs and one ACCWB. -/
theorem runHasExactlyStepsOperations : Obligations.RunHasExactlyStepsOperations := by
  refine fun c => ⟨runOps_length c, rfl, steps_eq c, ?_, ?_⟩
  · rw [runOps, List.countP_append, tilesOps_countP c c.nt rfl rfl rfl, c.isSize_eq]
    simp [List.countP_replicate]
  · rw [List.count, runOps, List.countP_append, tilesOps_countP c c.nt rfl rfl rfl, c.osSize_eq]
    simp [List.countP_replicate]

/-- Settles O26, read off the agreement of the two answers. -/
theorem controlIgnoresData : Obligations.ControlIgnoresData := by
  intro i s₁ s₂ h
  have hagree := exec_agreeOnControl i h
  refine ⟨fun t₁ ht => ?_, fun f hf => ?_⟩
  · rw [ht] at hagree
    exact hagree.of_next
  · rw [hf] at hagree
    exact hagree.of_fault

/-- Settles O9, from what each move does to the state whose turn has been taken. -/
theorem environmentMoves : Obligations.EnvironmentMoves := by
  refine fun s rest => ⟨fun p hs => step_of_host hs, fun hs hout => ?_, fun p l hs hout => ?_, fun hs hph => ?_,
    fun hs hph => ?_⟩
  · simp [step_of_host hs, State.hostMove, hout]
  · simp [step_of_host hs, State.hostMove, hout]
  · simp [step_of_host hs, State.hostMove, hph]
  · simp [step_of_host hs, State.hostMove, hph]

/-- Settles O11, from the frame of the environment's moves. -/
theorem environmentReachesOnlyTheChannels : Obligations.EnvironmentReachesOnlyTheChannels := by
  intro s t m rest hs ht
  rw [step_of_host hs] at ht
  cases ht
  refine ⟨State.hostMove_frame _ m, ?_, ?_, State.hostMove_pushed _ m⟩
  · rw [State.hostMove_inCh]
    exact ⟨_, rfl⟩
  · exact State.hostMove_outCh _ m

/-- Settles O13: START is not enabled outside `IDLE` nor without a `start`. -/
theorem startBeginsInvocation : Obligations.StartBeginsInvocation :=
  ⟨fun x => decode_eq_ok_iff.2 (by revert x; decide), fun _ hph hreq => ⟨_, if_pos ⟨hph, hreq⟩, rfl, rfl⟩,
    fun _ h => if_neg h⟩

/-- Settles O14: ACK is not enabled outside `DONE` nor without an `ack`. -/
theorem ackReturnsToIdle : Obligations.AckReturnsToIdle :=
  ⟨fun x => decode_eq_ok_iff.2 (by revert x; decide), fun _ hph hreq => ⟨_, if_pos ⟨hph, hreq⟩, rfl, rfl, rfl⟩,
    fun _ h => if_neg h⟩

/-- Settles O39: the step is START, and what it answers agrees with the stream. -/
theorem startBeginsTrackingTheStream : Obligations.StartBeginsTrackingTheStream := by
  intro S s hsound hidle hf (hturn : s.KernelsTurn)
  have hsound' : { s with sched := s.sched.tail }.Sound := { hsound with }
  have he := execStart_of_atIdle (s := { s with sched := s.sched.tail }) hidle
  exact ⟨_, (hturn.step_start hidle).trans he, hsound'.start_tracks hidle (hturn.pops.feeds hf) he⟩

/-- Settles O40: at `DONE` the counts are those of the whole stream, and the run agrees with its closed form. -/
theorem everyRunToDoneIsTheClosedForm : Obligations.EveryRunToDoneIsTheClosedForm := by
  intro S s t n hsound hidle _ hsends hrun hdone hfirst
  have hto : s.RunsTo n t := ⟨hrun, hfirst⟩
  obtain ⟨hicnt, hocnt, hpushed, hpops, -⟩ := hto.closedForm hdone hsound hidle hsends.feeds
  exact ⟨hicnt, hocnt, hpushed, hto.inCh_nil hidle.1 hdone hsends hpops, hpops.pending_length, refOut_length ..,
    fun _ _ => refOut_last_iff⟩

/-- Settles O55: every step takes a turn or an operation off what is to come, and at `DONE` the run agrees with the closed
form. -/
theorem launchedRunIsTheClosedForm : Obligations.LaunchedRunIsTheClosedForm := by
  intro S s hsound hlaunch
  obtain ⟨hidle, -, hsends, hdrains, -, -⟩ := hlaunch
  obtain ⟨n, hn, t, hto, hdone⟩ := hsends.reaches_done hsound hidle hdrains
  obtain ⟨hicnt, hocnt, hpushed, hpops, -⟩ := hto.closedForm hdone hsound hidle hsends.feeds
  exact ⟨n, hn, t, hto.1, hdone, hto.2, hicnt, hocnt, hto.inCh_nil hidle.1 hdone hsends hpops, hpushed⟩

/-- Settles O41: with no turn scheduled at most `STEPS` steps are needed, and a run has `STEPS` operations, one a step at
most. -/
theorem invocationIsTheClosedForm : Obligations.InvocationIsTheClosedForm := by
  intro S s hsound hidle hsched hcap _ hsends
  obtain ⟨n, hn, t, hto, hdone⟩ := hsends.reaches_done hsound hidle (.inl hcap)
  obtain ⟨hicnt, hocnt, hpushed, hpops, hsteps⟩ := hto.closedForm hdone hsound hidle hsends.feeds
  obtain rfl : n = s.cfg.steps := by
    rw [hsched, List.length_nil] at hn
    omega
  rw [run_received hsched hto.1, List.append_assoc] at hpushed
  exact ⟨t, hto.1, hdone, hpops.cfg, hicnt, hocnt, hto.inCh_nil hidle.1 hdone hsends hpops,
    List.append_cancel_left hpushed, refOut_length .., fun _ _ => refOut_last_iff⟩

/-- Settles O42: each appends the closed form of its configuration, which is the same one. -/
theorem tilingLanesAndLeftoversDoNotMatter : Obligations.TilingLanesAndLeftoversDoNotMatter := by
  intro S s₁ s₂ h hcfg
  have run (s : State) (hs : s ∈ [s₁, s₂]) : ∃ t, Host.Core.run core s.cfg.steps s = .next t ∧ t.phase = .done
      ∧ t.outCh = s.outCh ++ refOut s.cfg S s.cfg.osSize := by
    obtain ⟨hsound, hidle, hsched, hcap, hclean, hsends⟩ := h s hs
    obtain ⟨t, hrun, hdone, -, -, -, -, hout, -⟩ := invocationIsTheClosedForm S s hsound hidle hsched hcap hclean hsends
    exact ⟨t, hrun, hdone, hout⟩
  obtain ⟨t₁, hrun₁, hdone₁, hout₁⟩ := run s₁ (by simp)
  obtain ⟨t₂, hrun₂, hdone₂, hout₂⟩ := run s₂ (by simp)
  rw [(refOut_tiling_lanes hcfg S).2] at hout₂
  exact ⟨t₁, t₂, _, hrun₁, hrun₂, hdone₁, hdone₂, refOut_length .., hout₁, hout₂⟩

end Sys2Proof.Machine

/-! # Proofs: exceptions, stuck states and runs gone wrong (60_exceptions.md) -/

namespace Sys2Proof

/-- `CFGCHK` with each check stated as what it asks for (R10, R186). -/
theorem Params.cfgchk_eq (p : Params) :
    p.cfgchk =
      if ¬ (2 ≤ p.classes ∧ 2 ∣ p.classes) then some .cfgClasses
      else if ¬ (8 ≤ p.feat ∧ 8 ∣ p.feat) then some .cfgFeat
      else if ¬ (1 ≤ p.tiling ∧ 1 ≤ p.batch ∧ p.tiling ∣ p.batch) then some .cfgBatch
      else if ¬ (2 * p.wOff = p.payloadW ∧ 8 * p.wWgt = p.payloadW ∧ 8 * p.wIn = p.payloadW ∧ 2 * p.wOut = p.payloadW)
      then some .cfgWidth
      else none := by
  refine if_congr ?_ rfl (if_congr ?_ rfl (if_congr ?_ rfl (if_congr ?_ rfl rfl)))
  · omega
  · omega
  · simp only [Nat.dvd_iff_mod_eq_zero, not_and_or, Nat.not_le, ne_eq]
  · simp only [rOff, rWgt, rIn, rOut, not_and_or, ne_eq]

/-- The configuration of a machine passes `CFGCHK`: its type carries the proof (R10, R186). -/
theorem Config.cfgchk_eq_none (c : Config) : c.cfgchk = none := (of_decide_eq_true c.ok).1

/-- Settles O52: a check is reported when it fails and every one before it holds, and a machine's configuration carries the
proof that all hold. -/
theorem cfgchkReportsTheFirstFailure : Obligations.CfgchkReportsTheFirstFailure := by
  intro p classes feat batch width
  have hchk : p.cfgchk = if ¬ classes then some .cfgClasses else if ¬ feat then some .cfgFeat
      else if ¬ batch then some .cfgBatch else if ¬ width then some .cfgWidth else none := p.cfgchk_eq
  have hmachine : p.cfgchk ≠ none → ¬ ∃ s : Machine.State, s.cfg.toParams = p := by
    rintro hfails ⟨s, rfl⟩
    exact hfails s.cfg.cfgchk_eq_none
  by_cases hclasses : classes
  · by_cases hfeat : feat
    · by_cases hbatch : batch
      · by_cases hwidth : width
        · simp [*, ConfigError.code]
        · simp [*, ConfigError.code]
      · simp [*, ConfigError.code]
    · simp [*, ConfigError.code]
  · simp [*, ConfigError.code]

end Sys2Proof

namespace Sys2Proof.Machine

open Sys2Proof

section
variable {s t : State} {i : Instr} {S : Nat → Payload} {n : Nat}

/-! ### No step stops (R185) -/

/-- In a state that meets the invariant every operation answers a next state, whether it is enabled or not. -/
theorem State.Inv.exists_exec (h : s.Inv) (i : Instr) : ∃ t, exec i s = .next t := by
  by_cases hen : s.enabledOp = some i
  · by_cases hack : i = .ack
    · subst hack
      exact ⟨_, if_pos (State.enabledOp_eq_some_iff_selects.1 hen)⟩
    · obtain ⟨t, he, -⟩ := operationsFollowTheFixedSequence s i h hen hack
      exact ⟨t, he⟩
  · exact ⟨s, disabledOperationChangesNothing s i hen⟩

/-! ### Stuck states (R189, R190) -/

theorem State.stuck_iff : s.stuck = true ↔ (s.phase ≠ .idle ∧ s.phase ≠ .done) ∧ s.enabledOp = none := by
  simp [State.stuck, State.busy, State.idleOut, State.doneOut]

/-- What the kernel waits for is the extra condition of the operation selected (R104). -/
theorem State.Selects.enabledOp_eq_none_iff (h : s.Selects i) : s.enabledOp = none ↔ s.condition i = false := by
  simp [State.enabledOp, State.fetch_eq_ok_iff.2 h]

/-- An operation of the engine waits for nothing (R190). -/
theorem State.Inv.computeTile_not_stuck (h : s.Inv) (hph : s.phase = .computeTile) : s.stuck = false := by
  rw [← Bool.not_eq_true, State.stuck_iff]
  rintro ⟨-, hnone⟩
  cases hcs : s.cs with
  | init => exact absurd ((State.Selects.enabledOp_eq_none_iff (i := .accinit) ⟨hph, hcs⟩).1 hnone) nofun
  | macs => exact absurd ((State.Selects.enabledOp_eq_none_iff (i := .mac) ⟨hph, hcs⟩).1 hnone) nofun
  | wb => exact absurd ((State.Selects.enabledOp_eq_none_iff (i := .accwb) ⟨hph, hcs⟩).1 hnone) nofun
  | reserved => exact h.phaseInv.not_reserved.2 hcs

/-- The kernel is stuck where a load phase has no packet to pop or STOUT has no room (R190). -/
theorem State.Inv.stuck_iff (h : s.Inv) :
    s.stuck = true ↔
      ((s.phase = .loadOffsets ∨ s.phase = .loadWeights ∨ s.phase = .loadTile) ∧ s.inCh = []) ∨
        (s.phase = .storeTile ∧ s.hasRoom = false) := by
  cases hph : s.phase with
  | idle | done => simp [State.stuck_iff, hph]
  | loadOffsets =>
    simp [State.stuck_iff, State.Selects.enabledOp_eq_none_iff (i := .ldoff) hph, hph, State.condition]
  | loadWeights =>
    simp [State.stuck_iff, State.Selects.enabledOp_eq_none_iff (i := .ldwgt) hph, hph, State.condition]
  | loadTile =>
    simp [State.stuck_iff, State.Selects.enabledOp_eq_none_iff (i := .ldin) hph, hph, State.condition]
  | computeTile => simp [h.computeTile_not_stuck hph]
  | storeTile =>
    simp [State.stuck_iff, State.Selects.enabledOp_eq_none_iff (i := .stout) hph, hph, State.condition]
  | reserved => exact absurd hph h.phaseInv.not_reserved.1

theorem State.Inv.hostMove (h : s.Inv) (m : HostMove) : (s.hostMove m).Inv := by
  rw [State.inv_iff] at h ⊢
  exact ⟨h.1.hostMove m, h.2.hostMove m⟩

/-- After HOST_RECV has taken a packet the output channel has room (R72, R190). -/
theorem State.Sound.hasRoom_recv (h : s.Sound) (hout : s.outCh ≠ []) : (s.hostMove .recv).hasRoom = true := by
  rcases hc : s.outCh with _ | ⟨p, rest⟩
  · exact absurd hc hout
  · simp only [State.hasRoom_iff, State.hostMove, hc]
    intro n hn
    have hlen := h.capacity n hn
    rw [hc] at hlen
    exact hlen

/-! ### An enabled operation stays enabled until the kernel's turn (R206, R225) -/

/-- No move of the environment disables an operation: it takes nothing from the input channel and puts nothing into the
output channel, and a raised event is held (log 7). -/
theorem State.condition_hostMove (m : HostMove) (h : s.condition i = true) : (s.hostMove m).condition i = true := by
  cases i with
  | start =>
    rcases s.hostMove_cases m with he | ⟨_, -, he⟩ | ⟨_, _, -, -, he⟩ | ⟨-, -, he⟩ | ⟨-, -, he⟩ <;> rw [he]
    exacts [h, h, h, rfl, h]
  | ack =>
    rcases s.hostMove_cases m with he | ⟨_, -, he⟩ | ⟨_, _, -, -, he⟩ | ⟨-, -, he⟩ | ⟨-, -, he⟩ <;> rw [he]
    exacts [h, h, h, h, rfl]
  | ldoff | ldwgt | ldin =>
    have hin : s.inCh ≠ [] := by simpa [State.condition] using h
    simp [State.condition, State.hostMove_inCh, hin]
  | accinit | mac | accwb => rfl
  | stout =>
    have hcfg : (s.hostMove m).cfg = s.cfg := by rw [State.hostMove_frame]
    rw [State.condition, State.hasRoom_iff] at h ⊢
    rw [hcfg]
    exact fun n hn => Nat.lt_of_le_of_lt (s.hostMove_outCh m).length_le (h n hn)

theorem State.enabledOp_hostMove (m : HostMove) (h : s.enabledOp = some i) : (s.hostMove m).enabledOp = some i := by
  rw [State.enabledOp_eq_some_iff] at h ⊢
  obtain ⟨hph, hcs⟩ := s.hostMove_selector m
  exact ⟨by rw [State.fetch, State.sel, hph, hcs]; exact h.1, State.condition_hostMove m h.2⟩

/-- The kernel's turn comes after the environment's turns at the head of the schedule, and finds the operation enabled. -/
theorem State.enabledOp_until_kernelsTurn (h : s.enabledOp = some i) :
    ∃ m u, Turn.kernel ∉ s.sched.take m ∧ Host.Core.run core m s = .next u ∧ u.KernelsTurn ∧ u.enabledOp = some i := by
  induction hs : s.sched generalizing s with
  | nil => exact ⟨0, s, by simp, run_zero s, by simp [State.KernelsTurn, hs], h⟩
  | cons turn rest ih =>
    cases turn with
    | kernel => exact ⟨0, s, by simp, run_zero s, by simp [State.KernelsTurn, hs], h⟩
    | host m =>
      have hsched : ({ s with sched := rest }.hostMove m).sched = rest := by rw [State.hostMove_frame]
      obtain ⟨k, u, hk, hrun, hu⟩ := ih (State.enabledOp_hostMove (s := { s with sched := rest }) m h) hsched
      exact ⟨k + 1, u, by simpa using hk, (run_succ (step_of_host hs)).trans hrun, hu⟩

/-! ### Too few packets and too many (R189, R191) -/

/-- Before `DONE` fewer than `OS_SIZE` packets have been pushed (R38, R55). -/
theorem State.Inv.ocnt_lt_osSize (h : s.Inv) (hrun : s.phase ≠ .idle) (hdone : s.phase ≠ .done) :
    s.ocnt < s.cfg.osSize := by
  have htile : (s.t + 1) * s.cfg.tileOutPkts ≤ s.cfg.nt * s.cfg.tileOutPkts := Nat.mul_le_mul_right _ h.tile
  have hpos := s.cfg.tileOutPkts_pos
  rw [Nat.succ_mul] at htile
  rw [s.cfg.osSize_eq]
  cases hph : s.phase with
  | idle => exact absurd hph hrun
  | done => exact absurd hph hdone
  | reserved => exact absurd hph h.phaseInv.not_reserved.1
  | loadOffsets =>
    obtain ⟨-, -, -, -, hocnt⟩ := (State.phaseInv_loadOffsets hph).1 h.phaseInv
    omega
  | loadWeights =>
    obtain ⟨-, -, -, -, hocnt⟩ := (State.phaseInv_loadWeights hph).1 h.phaseInv
    omega
  | loadTile =>
    obtain ⟨-, -, -, hocnt⟩ := (State.phaseInv_loadTile hph).1 h.phaseInv
    omega
  | computeTile =>
    obtain ⟨-, -, -, -, -, hocnt⟩ := (State.phaseInv_computeTile hph).1 h.phaseInv
    omega
  | storeTile =>
    obtain ⟨-, hcnt, -, hocnt⟩ := (State.phaseInv_storeTile hph).1 h.phaseInv
    omega

/-- A run that has fewer packets than an invocation pops is not in `DONE`, after any number of steps. -/
theorem State.Sound.runsTo_of_short (h : s.Sound) (hidle : s.atIdle) (hf : s.Feeds S 0)
    (hshort : s.pending.length < s.cfg.isSize) (hrun : Host.Core.run core n s = .next t) :
    s.RunsTo n t ∧ t.phase ≠ .done := by
  induction n using Nat.strong_induction_on generalizing t with
  | _ n ih =>
    have hto : s.RunsTo n t := ⟨hrun, fun m hm u hu => (ih m hm hu).2⟩
    refine ⟨hto, fun hdone => ?_⟩
    obtain ⟨-, -, -, hpops, -⟩ := hto.closedForm hdone h hidle hf
    have := hpops.pending_length
    omega

/-- Before `DONE` an invocation has pushed a beginning of the closed form of its stream, without the last packet. -/
theorem State.Serves.pushed_lt {before : List Packet} (h : s.Serves S before) (hdone : s.phase ≠ .done) :
    ∃ k < s.cfg.osSize, s.received ++ s.outCh = before ++ refOut s.cfg S k := by
  cases h with
  | waits _ _ _ pushed =>
    refine ⟨0, ?_, pushed.trans (List.append_nil _).symm⟩
    rw [s.cfg.osSize_eq]
    exact Nat.mul_pos s.cfg.nt_pos s.cfg.tileOutPkts_pos
  | runs tracks => exact ⟨s.ocnt, tracks.inv.ocnt_lt_osSize tracks.running hdone, tracks.pushed⟩

/-- No packet before the last of the closed form carries the flag (R159). -/
theorem last_of_mem_refOut {c : Config} {p : Packet} (hn : n < c.osSize) (hp : p ∈ refOut c S n) : p.last = false := by
  obtain ⟨m, hm, rfl⟩ := List.mem_map.1 hp
  have := List.mem_range.1 hm
  exact decide_eq_false (by omega)

/-- The payloads of the packets to come, as a stream. -/
def State.pendingStream (s : State) (n : Nat) : Payload := (s.pending[n]?.map Packet.data).getD 0

/-- Whatever is to come is fed as its own stream. -/
theorem State.feeds_pendingStream (s : State) : s.Feeds s.pendingStream 0 := by
  intro m p hm _
  rw [Nat.zero_add, State.pendingStream, hm]
  rfl

end

/-- Settles O10: the move is one that raises nothing in that phase. -/
theorem eventsAtTheWrongTimeChangeNothing : Obligations.EventsAtTheWrongTimeChangeNothing := by
  rintro s m rest hs (⟨rfl, hph⟩ | ⟨rfl, hph⟩)
  · rw [step_of_host hs]
    exact congrArg _ (if_neg hph)
  · rw [step_of_host hs]
    exact congrArg _ (if_neg hph)

/-- Settles O12: the environment does not touch the phase, and in `DONE` no operation but ACK does anything. -/
theorem doneIsHeldUntilAck : Obligations.DoneIsHeldUntilAck := by
  intro s t hdone ht
  rcases step_turn ht with ⟨m, rest, -, rfl⟩ | ⟨-, i, he⟩
  · have hph := (State.hostMove_selector { s with sched := rest } m).1.trans hdone
    exact .inl ⟨hph, decide_eq_true hph, State.hostMove_outCh _ m⟩
  · by_cases hi : i = .ack
    · subst hi
      rcases execAck_next he with rfl | ⟨-, hreq, rfl⟩
      · exact .inl ⟨hdone, decide_eq_true hdone, List.suffix_refl _⟩
      · exact .inr ⟨hreq, rfl, rfl, rfl, rfl⟩
    · rw [exec_of_fetch_ne (by simp [State.fetch_eq, hdone, Ne.symm hi])] at he
      cases he
      exact .inl ⟨hdone, decide_eq_true hdone, List.suffix_refl _⟩

/-- Settles O30: the environment's move always happens, and the operation of the kernel's turn, if there is one, answers a
next state. -/
theorem noStepEverStops : Obligations.NoStepEverStops := by
  intro s h
  by_cases hhost : ∃ m rest, s.sched = .host m :: rest
  · obtain ⟨m, rest, hs⟩ := hhost
    exact ⟨_, step_of_host hs⟩
  have hturn : s.KernelsTurn := fun m rest hs => hhost ⟨m, rest, hs⟩
  rcases hen : s.enabledOp with _ | i
  · exact ⟨_, hturn.step_of_none hen⟩
  · rw [stepRunsSelectedOperation s i hturn (State.enabledOp_eq_some_iff.1 hen).1]
    exact State.Inv.exists_exec (s := { s with sched := s.sched.tail }) { h with } i

/-- Settles O33: each phase waits for the condition of its operation alone, and the two moves make it hold. -/
theorem stuckExactlyWhenWaiting : Obligations.StuckExactlyWhenWaiting := by
  intro s h
  have hstuck := h.stuck_iff
  refine ⟨hstuck, fun hs hcap => ?_, h.computeTile_not_stuck, fun p hs hph => ?_, fun hs hph hout => ?_⟩
  · rcases hstuck.1 hs with ⟨-, hin⟩ | ⟨-, hroom⟩
    · exact hin
    · simp [State.hasRoom, hcap] at hroom
  · rw [← Bool.not_eq_true, (h.hostMove _).stuck_iff, (s.hostMove_selector _).1, State.hostMove_inCh]
    simp [hph]
  · rw [← Bool.not_eq_true, (h.hostMove _).stuck_iff, (s.hostMove_selector _).1, h.hasRoom_recv hout]
    simp [hph]

/-- Settles O34: the kernel's turn passes and changes nothing, and no other turn is to come. -/
theorem waitingKernelStaysForEver : Obligations.WaitingKernelStaysForEver := by
  intro s hs hen k
  have hturn : s.KernelsTurn := fun m rest => by simp [hs]
  have hstep : step s = .next s := by
    rw [hturn.step_of_none hen, hs, List.tail_nil, ← hs]
  induction k with
  | zero => exact run_zero s
  | succ k ih => exact (run_succ hstep).trans ih

/-- Settles O56: where every launch premise is met, `DONE` is reached with the closed form pushed. -/
theorem noThirdOutcome : Obligations.NoThirdOutcome := by
  intro S s hsound
  by_cases hlaunch : s.Launch S
  · obtain ⟨n, -, t, hrun, hdone, hfirst, -, -, -, hpushed⟩ := launchedRunIsTheClosedForm S s hsound hlaunch
    have hreaches : s.ReachesDone := ⟨n, t, hrun, hdone⟩
    exact ⟨.inr ⟨n, t, hrun, hdone, hfirst, hpushed⟩, by simp [State.GoneWrong, hlaunch, hreaches]⟩
  · exact ⟨.inl (.inr hlaunch), by simp [State.GoneWrong, hlaunch]⟩

/-- Settles O57: the environment's turns until the kernel's own leave the operation enabled. -/
theorem everyRunIsFair : Obligations.EveryRunIsFair := fun _ _ _ _ _ hen => State.enabledOp_until_kernelsTurn hen

/-- Settles O58: reaching `DONE` would have popped more packets than there are, and before it the run is in agreement with
the closed form. -/
theorem shortStreamNeverReachesDone : Obligations.ShortStreamNeverReachesDone := by
  intro S s hsound hidle hf hshort n t hrun
  obtain ⟨hto, hdone⟩ := hsound.runsTo_of_short hidle hf hshort hrun
  obtain ⟨hserves, ⟨_, hpops, -⟩, -⟩ := hto.serves (hsound.serves hidle hf)
  obtain ⟨k, hk, hpushed⟩ := hserves.pushed_lt hdone
  rw [hpops.cfg] at hk hpushed
  exact ⟨hdone, k, hk, hpushed, fun p => last_of_mem_refOut hk⟩

/-- Settles O59: a run pops from the front of what is to come, which serves as its stream, and START pops nothing. -/
theorem surplusPacketsStayInTheChannel : Obligations.SurplusPacketsStayInTheChannel := by
  refine ⟨fun s t n hsound hidle hrun hdone hfirst => ?_, fun s t hidle hturn ht => ?_⟩
  · have hto : s.RunsTo n t := ⟨hrun, hfirst⟩
    obtain ⟨hicnt, -, -, hpops, -⟩ := hto.closedForm hdone hsound hidle s.feeds_pendingStream
    obtain ⟨l, hl, hpending⟩ := hpops.pending
    exact ⟨hicnt, by rw [hpending, List.drop_left' hl]⟩
  · obtain ⟨l, hl, hpending⟩ := hturn.pops.pending
    rw [List.length_eq_zero_iff.1 hl, List.nil_append] at hpending
    rw [hturn.step_start hidle, exec, execStart_of_atIdle (s := { s with sched := s.sched.tail }) hidle] at ht
    cases ht
    exact ⟨rfl, rfl, rfl, hpending.symm⟩

end Sys2Proof.Machine

/-! # Proofs: reset and progress (70_reset_and_hazards.md) -/

namespace Sys2Proof.Machine

open Sys2Proof

/-- A step before `DONE` keeps a run in progress: the invariant holds and `IDLE` is not entered (R55, R166). -/
theorem State.Inv.step_running {s t : State} (h : s.Inv) (hrun : s.phase ≠ .idle) (hdone : s.phase ≠ .done)
    (ht : step s = .next t) : t.Inv ∧ t.phase ≠ .idle :=
  ⟨stepKeepsInvariant s t h ht, fun hidle => (step_idle ht hidle).elim hrun hdone⟩

/-- A run in progress that has its packets and is drained reaches `DONE`, within the turns scheduled and the operations left:
every step before `DONE` takes a turn or an operation off what is to come (R189, R190, R225). -/
theorem State.Inv.reaches_done {s : State} (h : s.Inv) (hrun : s.phase ≠ .idle) (hfed : s.fed s.popped)
    (hdrains : s.HostDrains) : ∃ n ≤ s.sched.length + s.todo.length, ∃ t, s.RunsTo n t ∧ t.phase = .done := by
  refine Machine.reaches_done (P := fun u => (u.Inv ∧ u.phase ≠ .idle) ∧ u.fed u.popped ∧ u.HostDrains)
    (measure := fun u => u.sched.length + u.todo.length) (fun u ⟨⟨hinv, hrun⟩, hfed, hdrains⟩ hdone => ?_)
    ⟨⟨h, hrun⟩, hfed, hdrains⟩
  obtain ⟨v, hv, hlt⟩ := State.Live.step_decreases (.inr ⟨hinv, hrun⟩) hdone hfed hdrains
  have hvrun := hinv.step_running hrun hdone hv
  obtain ⟨k, hpops, hpopped⟩ := step_pops hv fun hidle => absurd hidle hvrun.2
  exact ⟨v, hv, ⟨hvrun, hpopped ▸ hpops.fed hfed, hdrains.step hdone hv hpops.cfg⟩, hlt⟩

/-- Settles O37: in a run in progress the packets popped are those of the input cursor. -/
theorem runReachesDone : Obligations.RunReachesDone := by
  intro s hinv hrun hdrains hfed
  rw [← State.popped_of_not_idle hrun] at hfed
  obtain ⟨n, hn, t, hto, hdone⟩ := hinv.reaches_done hrun hfed hdrains
  exact ⟨n, hn, t, hto.1, hdone⟩

/-- Settles O6: the fields are those of `State.resetWith`, and the selector `00000` picks START, which waits for `start`. -/
theorem resetLeavesIdle : Obligations.ResetLeavesIdle := by
  rintro c _ ⟨acc, sched, rfl⟩
  have hsel : Phase.idle.code ++ SubStep.init.code = 0b00000#5 := by decide
  refine ⟨rfl, rfl, rfl, rfl, rfl, rfl, rfl, rfl, rfl, rfl, rfl, rfl, rfl, rfl, hsel, fun b => ?_⟩
  cases b with
  | false => exact State.enabledOp_idle rfl rfl
  | true => exact State.enabledOp_eq_some_iff_selects.2 ⟨rfl, rfl⟩

end Sys2Proof.Machine
